-- ==== Sys2Proof/Word.lean ====
section
/-! DEFINITION. Word.lean: the word types of the engine (00_scope.md R10, R11, R14; 20_memory.md R45).
Word arithmetic is `BitVec`'s own: `+`, `-`, unary `-` and `*` are modulo `2^64`, `^^^` and `&&&` are bitwise, `toNat` is
the unsigned value and `toInt` the two's-complement value `sint` of R12. -/

namespace Sys2Proof

/-- A 64-bit word, bits 63 down to 0, unsigned unless a rule names `sint` (R10, R14). -/
abbrev Word := BitVec 64

/-- A byte of the output buffer or of a word in little-endian order (R13 `LE8`). -/
abbrev Byte := BitVec 8

/-- A 32-bit host word address `HADDR`, which names a whole 64-bit word (R45). -/
abbrev HAddr := BitVec 32

end Sys2Proof
end

