-- ==== Sys2Proof/Syntax.lean ====
section
/-! DEFINITION. Syntax.lean: the sixteen commands of the engine, one constructor per row of spec/opcode_table.json
(30_encoding.md R76), with the operands of R73 to R75 as unsigned numbers. -/

namespace Sys2Proof

/-- A command, the engine's instruction (R76). Operand roles of the row commands are those of R75. -/
inductive Instr where
  /-- `NOP` (R90). -/
  | nop
  /-- `INIT`: initialise the sponge state (R91). -/
  | init
  /-- `PERM12`: twelve rounds on the state (R92). -/
  | perm12
  /-- `PERM1`: one round on the state (R93). -/
  | perm1
  /-- `ABSORB8 ADDR`: absorb the eight matrix words from word address `ADDR` (R94). -/
  | absorb8 (addr : Nat)
  /-- `ABSORB12 RA`: absorb the block at column 0 of row `RA` (R95). -/
  | absorb12 (ra : Nat)
  /-- `SQUEEZE LEN`: write `LEN` bytes of output (R96). -/
  | squeeze (len : Nat)
  /-- `SQZROW0 RA`: fill row `RA` from the state (R102). -/
  | sqzrow0 (ra : Nat)
  /-- `DUPROW1 RA, RB`: `RA` is the input row, `RB` the output row (R103). -/
  | duprow1 (ra rb : Nat)
  /-- `DUPSETUP RA, RB, RC`: `RA` is prev, `RB` is rand, `RC` is out (R104). -/
  | dupsetup (ra rb rc : Nat)
  /-- `DUPROW RA, RB, RC`: `RA` is prev, `RB` is rand, `RC` is out (R105). -/
  | duprow (ra rb rc : Nat)
  /-- `SELROW`: select the pseudo-random row from the state (R107). -/
  | selrow
  /-- `AGSINIT`: load the Setup schedule's initial values (R108). -/
  | agsinit
  /-- `AGSSTEP`: one iteration of the Setup loop (R109). -/
  | agsstep
  /-- `AGWINIT TAU`: start one outer iteration of the Wandering phase (R111). -/
  | agwinit (tau : Nat)
  /-- `AGWSTEP`: one iteration of the Wandering inner loop (R112). -/
  | agwstep
deriving DecidableEq, Repr

end Sys2Proof
end

