-- ==== Sys2Proof/WellFormed.lean ====
section
/-! DEFINITION. WellFormed.lean: which commands have an encoding. An assembler refuses an operand that does not fit its field
(30_encoding.md R79): row operands are 16 bits, `ADDR`, `LEN` and `TAU` are 32 bits (R72, R73). -/

namespace Sys2Proof

/-- A row operand fits its 16-bit field (R73, R79). -/
def fitsRow (r : Nat) : Bool := decide (r < 65536)

/-- `ADDR`, `LEN` or `TAU` fits its 32-bit field (R73, R79). -/
def fitsLong (v : Nat) : Bool := decide (v < 4294967296)

/-- Every operand fits its field (R79). -/
def Instr.wellFormed : Instr → Bool
  | .nop => true
  | .init => true
  | .perm12 => true
  | .perm1 => true
  | .absorb8 addr => fitsLong addr
  | .absorb12 ra => fitsRow ra
  | .squeeze len => fitsLong len
  | .sqzrow0 ra => fitsRow ra
  | .duprow1 ra rb => fitsRow ra && fitsRow rb
  | .dupsetup ra rb rc => fitsRow ra && fitsRow rb && fitsRow rc
  | .duprow ra rb rc => fitsRow ra && fitsRow rb && fitsRow rc
  | .selrow => true
  | .agsinit => true
  | .agsstep => true
  | .agwinit tau => fitsLong tau
  | .agwstep => true

end Sys2Proof
end

