-- ==== Sys2Proof/Decode.lean ====
section
/-! DEFINITION. Decode.lean: the command decoder, total on all `2^64` words and rejecting by name (30_encoding.md R71 to R78),
and after it the encoder written from the same format table (R72, R74, R79). -/

namespace Sys2Proof

/-- The seven formats of R72. -/
inductive Format where
  | n
  | a
  | l
  | t
  | r1
  | r2
  | r3
deriving DecidableEq, Repr

/-- Why a word is no command (R78): its opcode is reserved, or a bit its format marks `0` is 1. Both are `ERR_OPCODE`. -/
inductive DecodeError where
  | reservedOpcode (opc : Byte)
  | reservedBits (opc : Byte)
deriving DecidableEq, Repr

/-- `MASK_F` of R77: the opcode bits and the reserved bits of a format. -/
def Format.mask : Format → Word
  | .n => 0xFFFFFFFFFFFFFFFF
  | .a => 0xFFFFFF00000000FF
  | .l => 0xFFFFFF00000000FF
  | .t => 0xFFFFFF00000000FF
  | .r1 => 0xFFFFFFFFFF0000FF
  | .r2 => 0xFFFFFF00000000FF
  | .r3 => 0xFF000000000000FF

/-- `OPC`, bits `[7:0]` (R71). -/
def opcodeOf (w : Word) : Byte := w.extractLsb' 0 8

/-- `RA = zext_64(w[23:8])` (R74). -/
def fieldRA (w : Word) : Nat := (w.extractLsb' 8 16).toNat

/-- `RB = zext_64(w[39:24])` (R74). -/
def fieldRB (w : Word) : Nat := (w.extractLsb' 24 16).toNat

/-- `RC = zext_64(w[55:40])` (R74). -/
def fieldRC (w : Word) : Nat := (w.extractLsb' 40 16).toNat

/-- `ADDR = LEN = TAU = zext_64(w[39:8])` (R74). -/
def fieldLong (w : Word) : Nat := (w.extractLsb' 8 32).toNat

/-- The word `w` is the command `i` of format `f` when `(w & MASK_F) = OPC` (R77); otherwise a reserved bit is set (R78). -/
def decodeAs (f : Format) (w : Word) (i : Instr) : Except DecodeError Instr :=
  if w &&& f.mask = (opcodeOf w).setWidth 64 then .ok i else .error (.reservedBits (opcodeOf w))

/-- The opcode map of R76. -/
def decode (w : Word) : Except DecodeError Instr :=
  match (opcodeOf w).toNat with
  | 0x00 => decodeAs .n w .nop
  | 0x01 => decodeAs .n w .init
  | 0x02 => decodeAs .n w .perm12
  | 0x03 => decodeAs .n w .perm1
  | 0x04 => decodeAs .a w (.absorb8 (fieldLong w))
  | 0x05 => decodeAs .r1 w (.absorb12 (fieldRA w))
  | 0x06 => decodeAs .l w (.squeeze (fieldLong w))
  | 0x08 => decodeAs .r1 w (.sqzrow0 (fieldRA w))
  | 0x09 => decodeAs .r2 w (.duprow1 (fieldRA w) (fieldRB w))
  | 0x0A => decodeAs .r3 w (.dupsetup (fieldRA w) (fieldRB w) (fieldRC w))
  | 0x0B => decodeAs .r3 w (.duprow (fieldRA w) (fieldRB w) (fieldRC w))
  | 0x10 => decodeAs .n w .selrow
  | 0x11 => decodeAs .n w .agsinit
  | 0x12 => decodeAs .n w .agsstep
  | 0x13 => decodeAs .t w (.agwinit (fieldLong w))
  | 0x14 => decodeAs .n w .agwstep
  | _ => .error (.reservedOpcode (opcodeOf w))

/-- Format `N` of R72: 56 zero bits and the opcode. -/
def packN (opc : Byte) : Word := 0#56 ++ opc

/-- Formats `A`, `L` and `T` of R72: 24 zero bits, a 32-bit field, the opcode. -/
def packLong (opc : Byte) (v : Nat) : Word := 0#24 ++ BitVec.ofNat 32 v ++ opc

/-- Format `R1` of R72: 40 zero bits, `RA`, the opcode. -/
def packR1 (opc : Byte) (ra : Nat) : Word := 0#40 ++ BitVec.ofNat 16 ra ++ opc

/-- Format `R2` of R72: 24 zero bits, `RB`, `RA`, the opcode. -/
def packR2 (opc : Byte) (ra rb : Nat) : Word := 0#24 ++ BitVec.ofNat 16 rb ++ BitVec.ofNat 16 ra ++ opc

/-- Format `R3` of R72: 8 zero bits, `RC`, `RB`, `RA`, the opcode. -/
def packR3 (opc : Byte) (ra rb rc : Nat) : Word :=
  0#8 ++ BitVec.ofNat 16 rc ++ BitVec.ofNat 16 rb ++ BitVec.ofNat 16 ra ++ opc

/-- The command word of an instruction whose operands fit their fields (R72, R76). -/
def encode : Instr → Word
  | .nop => packN 0x00
  | .init => packN 0x01
  | .perm12 => packN 0x02
  | .perm1 => packN 0x03
  | .absorb8 addr => packLong 0x04 addr
  | .absorb12 ra => packR1 0x05 ra
  | .squeeze len => packLong 0x06 len
  | .sqzrow0 ra => packR1 0x08 ra
  | .duprow1 ra rb => packR2 0x09 ra rb
  | .dupsetup ra rb rc => packR3 0x0A ra rb rc
  | .duprow ra rb rc => packR3 0x0B ra rb rc
  | .selrow => packN 0x10
  | .agsinit => packN 0x11
  | .agsstep => packN 0x12
  | .agwinit tau => packLong 0x13 tau
  | .agwstep => packN 0x14

/-- The assembler of R79: the command word, or a refusal of an operand that does not fit its field. -/
def assemble (i : Instr) : Option Word := if i.wellFormed then some (encode i) else none

/-- The command word whose low `nbits` bits are those of `w` and whose other bits are 0 (R71: one 64-bit word). -/
def tableWord (nbits w : Nat) : Word := BitVec.ofNat 64 (w % 2 ^ nbits)

/-- The command the decoder reads from the bits `w` of an opcode-table row that is `nbits` wide; none where it refuses. -/
def decodeTableWord (nbits w : Nat) : Option Instr :=
  match decode (tableWord nbits w) with
  | .ok i => some i
  | .error _ => none

end Sys2Proof
end

