-- ==== Sys2Proof/Config.lean ====
section
/-! DEFINITION. Config.lean: what an instance of the engine fixes (00_scope.md R9) and the values the spec leaves free
(its draws: 10_state.md R19, 20_memory.md R50 and R53). None of the constants has a body, so a claim holds whatever they are.
The parameters enter a run through `State.reset`, which copies them into the read-only capability fields of the state. -/

namespace Sys2Proof

/-- `SETUP_STEP_ORDER` (R9): whether AGSSTEP computes `step` from the window before it doubles (`REF`) or after (`DOC`). -/
inductive StepOrder where
  | ref
  | doc
deriving DecidableEq, Repr, Inhabited

/-- How many words `MEM` has above the 36 of the smallest legal matrix; `MEM_WORDS` is 36 to `2^28` (R9). -/
opaque Config.memWordsAbove36 : Fin (268435420 + 1)

/-- `MEM_WORDS`, the size of the matrix memory in words: any value from 36 to `2^28` (R9). -/
def Config.memWords : Nat := 36 + Config.memWordsAbove36.val

/-- How many 8-byte units `OUT` has above the first; `OUT_CAP` is a multiple of 8 from 8 to 4096 (R9). -/
opaque Config.outUnitsAbove1 : Fin (511 + 1)

/-- `OUT_CAP`, the size of the output buffer in bytes: any multiple of 8 from 8 to 4096 (R9). -/
def Config.outCap : Nat := 8 + 8 * Config.outUnitsAbove1.val

/-- `SETUP_STEP_ORDER` of the instance: `REF` or `DOC` (R9, 92_eei_decisions.md D20). -/
opaque Config.setupStepOrder : StepOrder

/-- The draw a host read of state word `i` returns while `SV = 0`, and the content of `S[i]` that a reset during a run leaves
(R19, R43, R138, R139). The first argument is the state's draw counter, so that no two draws are tied to each other. -/
opaque Config.freeStateWord : Nat → Nat → Word

/-- The draw for byte `a` of `MEM` (byte `k` of word `b` is byte `8b + k`) that nothing has written since the last hardware
reset (R50); the first argument is the draw counter. -/
opaque Config.freeMemByte : Nat → Nat → Byte

/-- The draw for byte `k` of `OUT` that no SQUEEZE has written since the last hardware reset (R53); the first argument is the
draw counter. -/
opaque Config.freeOutByte : Nat → Nat → Byte

end Sys2Proof
end

