-- ==== Sys2Proof/Machine/State.lean ====
section
/-! DEFINITION. Machine/State.lean: every piece of state the spec gives the engine (10_state.md, 20_memory.md), the host's
pending bus accesses, and the state after a hardware reset (R43). INVENTORY.md lists each field with its rule. -/

namespace Sys2Proof.Machine

/-- The sponge state `S[0]` to `S[15]` (R16). -/
abbrev Sponge := Vector Word 16

/-- A memory as its written bytes, addresses strictly rising (`Memory.wf`). An address that is not listed has not been written
since the last hardware reset, and reads as a draw (R50, R53). -/
abbrev Memory := List Host.Cell

/-- The model has no fault: the spec's errors are rejections, which are engine state and not faults of the model (R117), and
no access is misaligned, refused or outside the host address map (R46, R47, R57, R61). So the type has no constructor. -/
inductive Fault
deriving DecidableEq, Repr

/-- Why a step gives no meaning. -/
inductive Refusal where
  /-- Raised by an arm of `exec` for a command that has no meaning yet. No arm raises it: every command is modelled. Safe. -/
  | notModelled (mnemonic : String)
deriving DecidableEq, Repr

/-- One host access: a read or a write of one whole 64-bit word at a host word address (R45). -/
inductive Access where
  | read (haddr : HAddr)
  | write (haddr : HAddr) (data : Word)
deriving DecidableEq, Repr

/-- What the outside brings to the engine, in the order it comes (R65, R114, R138). -/
inductive Event where
  /-- The host's next access. -/
  | access (a : Access)
  /-- The engine moves before the next event; nothing happens when it is idle (R114). -/
  | engineTurn
  /-- A hardware reset by the platform, at any step of either agent (R138). -/
  | hardwareReset
deriving DecidableEq, Repr

/-- The state of one engine, of the bus it is reached by, and of the host's accesses still to come. -/
structure State where
  /-- `S[0..15]` (R16). -/
  sponge : Sponge
  /-- `SV`, the state-valid bit (R18). -/
  sv : Bool
  /-- `AG_ROW` (R20). -/
  agRow : Word
  /-- `AG_PREV` (R20). -/
  agPrev : Word
  /-- `AG_ROWA` (R20). -/
  agRowa : Word
  /-- `AG_STEP` (R20). -/
  agStep : Word
  /-- `AG_WINDOW` (R20). -/
  agWindow : Word
  /-- `AG_GAP` (R20). -/
  agGap : Word
  /-- `AG_BIGSTEP` (R20). -/
  agBigstep : Word
  /-- `CFG_ROWS` (R21). -/
  cfgRows : Word
  /-- `CFG_COLS` (R21). -/
  cfgCols : Word
  /-- `CTRL.IE_DONE` (R25). -/
  ieDone : Bool
  /-- `CTRL.IE_ERR` (R25). -/
  ieErr : Bool
  /-- The command in flight: the latched command word while `STATUS.BUSY` is 1, none while the engine is idle (R27, R42, R114). -/
  inflight : Option Word
  /-- `STATUS.DONE` (R28). -/
  done : Bool
  /-- `STATUS.ERR` (R29). -/
  err : Bool
  /-- `STATUS.DROP` (R31). -/
  drop : Bool
  /-- `STATUS.ERRCODE`, bits `[15:8]` (R29, R119). -/
  errCode : BitVec 8
  /-- The read-back value of `CMD` (R34). -/
  cmd : Word
  /-- `ERRINFO` (R35). -/
  errInfo : Word
  /-- `OUT_LEN` (R36). -/
  outLen : Word
  /-- `MEM_WORDS` of the instance, read back in `CAP_MEMWORDS`; no step changes it (R9, R37). -/
  memWords : Nat
  /-- `OUT_CAP` of the instance, read back in `CAP_OUT`; no step changes it (R9, R37). -/
  outCap : Nat
  /-- `SETUP_STEP_ORDER` of the instance, read back in `CAP_FLAGS`; no step changes it (R9, R37). -/
  stepOrder : StepOrder
  /-- `MEM` by bytes: byte `k` of word `a` at `8a + k`, in the little-endian order of R55 (R48). -/
  mem : Memory
  /-- `OUT` (R51). -/
  out : Memory
  /-- THE MODEL'S OWN: the host's accesses and the platform's events still to come, in order (R6, R65). -/
  events : List Event
  /-- The 64 bits that the last completed host read returned (R45); none before the first. -/
  rdata : Option Word
  /-- THE MODEL'S OWN: the draw counter, the first argument of the free values of `Config`. -/
  draws : Nat
deriving DecidableEq, Repr

/-- The machine right after a hardware reset (R43, R138), with no event to come. `S` is unspecified there: the words below are
the model's choice (DESIGN CHOICE, notes/assumptions/1.md) and nothing can read them while `SV` is 0 (R18, R19). -/
def State.reset : State where
  sponge := Vector.replicate 16 0
  sv := false
  agRow := 0
  agPrev := 0
  agRowa := 0
  agStep := 0
  agWindow := 0
  agGap := 0
  agBigstep := 0
  cfgRows := 0
  cfgCols := 0
  ieDone := false
  ieErr := false
  inflight := none
  done := false
  err := false
  drop := false
  errCode := 0
  cmd := 0
  errInfo := 0
  outLen := 0
  memWords := Config.memWords
  outCap := Config.outCap
  stepOrder := Config.setupStepOrder
  mem := []
  out := []
  events := []
  rdata := none
  draws := 0

end Sys2Proof.Machine
end

