-- ==== Sys2Proof/Machine/Flags.lean ====
section
/-! DEFINITION. Machine/Flags.lean: the fields of `STATUS`, `CTRL` and `CAP_FLAGS`, stored and computed (10_state.md R25 to R33,
R37, R40; 60_exceptions.md R126). The engine has no arithmetic flags (R40). -/

namespace Sys2Proof.Machine

/-- `STATUS.BUSY`: a command is in flight (R27). -/
def State.busy (s : State) : Bool := s.inflight.isSome

/-- `STATUS.SDONE`: `AG_ROW >= CFG_ROWS`, unsigned (R32). -/
def State.sdone (s : State) : Bool := decide (s.cfgRows.toNat ≤ s.agRow.toNat)

/-- `STATUS.WZERO`: `AG_ROW = 0` (R33). -/
def State.wzero (s : State) : Bool := decide (s.agRow = 0)

/-- `STATUS.IRQ`, the level of the interrupt line (R126). -/
def State.irq (s : State) : Bool := (s.done && s.ieDone) || (s.err && s.ieErr)

/-- What a read of `STATUS` returns: the fields of R26, bits `[63:16]` zero (R38). -/
def State.statusWord (s : State) : Word :=
  0#48 ++ s.errCode ++ BitVec.ofBool s.irq ++ BitVec.ofBool s.wzero ++ BitVec.ofBool s.sdone ++ BitVec.ofBool s.drop ++
    BitVec.ofBool s.sv ++ BitVec.ofBool s.err ++ BitVec.ofBool s.done ++ BitVec.ofBool s.busy

/-- What a read of `CTRL` returns: `IE_ERR` and `IE_DONE`; `SRST` and the reserved bits read 0 (R25, R38). -/
def State.ctrlWord (s : State) : Word := 0#62 ++ BitVec.ofBool s.ieErr ++ BitVec.ofBool s.ieDone

/-- What a read of `CAP_FLAGS` returns: bit 0 is 1 for `DOC`, 0 for `REF` (R37). -/
def State.capFlagsWord (s : State) : Word :=
  match s.stepOrder with
  | .ref => 0
  | .doc => 1

/-- What a read of `ID` returns (R24). -/
def idWord : Word := 0x00000000B25B0001

end Sys2Proof.Machine
end

