-- ==== Sys2Proof/Machine/Memory.lean ====
section
/-! DEFINITION. Machine/Memory.lean: reading and writing the two storage spaces `MEM` and `OUT` (20_memory.md R44, R48, R51).
Both are lists of written bytes; a 64-bit word is eight of them, least significant first (R52, R55). -/

namespace Sys2Proof.Machine

/-- The canonical form: addresses strictly rising. An unlisted address has no value of its own (its reads are draws), so no
entry can equal what an unlisted address reads as, and equal written contents are equal lists. -/
abbrev Memory.wf (m : Memory) : Prop := m.Pairwise (fun x y => x.1 < y.1)

/-- Every written address is below `n`. -/
abbrev Memory.Inside (n : Nat) (m : Memory) : Prop := ∀ c ∈ m, c.1 < n

/-- The byte written at `a`, or none when nothing has written it since the last hardware reset. -/
def Memory.byte? : Memory → Nat → Option Byte
  | [], _ => none
  | (k, v) :: m, a => if k = a then some v else Memory.byte? m a

/-- Write byte `b` at `a`, keeping the canonical form. -/
def Memory.setByte : Memory → Nat → Byte → Memory
  | [], a, b => [(a, b)]
  | (k, v) :: m, a, b =>
    if a < k then (a, b) :: (k, v) :: m
    else if a = k then (a, b) :: m
    else (k, v) :: Memory.setByte m a b

/-- The byte at `a`, with the draw `free a` where nothing has written it (R50, R53). -/
def Memory.byteAt (free : Nat → Byte) (m : Memory) (a : Nat) : Byte := (m.byte? a).getD (free a)

/-- The word whose byte `j` (bits `[8j+7:8j]`) is the byte at `8a + j` (R52, R55). -/
def Memory.wordAt (free : Nat → Byte) (m : Memory) (a : Nat) : Word :=
  m.byteAt free (8 * a + 7) ++ m.byteAt free (8 * a + 6) ++ m.byteAt free (8 * a + 5) ++ m.byteAt free (8 * a + 4) ++
    m.byteAt free (8 * a + 3) ++ m.byteAt free (8 * a + 2) ++ m.byteAt free (8 * a + 1) ++ m.byteAt free (8 * a)

/-- Byte `k` of a word in little-endian order: bits `[8k+7:8k]` (R13 `LE8`, R54). -/
def leByte (v : Word) (k : Nat) : Byte := v.extractLsb' (8 * k) 8

/-- Write the first `n` bytes of `v`, least significant first, from byte address `a`. -/
def Memory.setBytes (m : Memory) (a : Nat) (v : Word) : Nat → Memory
  | 0 => m
  | n + 1 => (Memory.setBytes m a v n).setByte (a + n) (leByte v n)

/-- `MemWrite(a, v)`: set the whole word `a` to `v` (R13, R48). -/
def Memory.setWord (m : Memory) (a : Nat) (v : Word) : Memory := m.setBytes (8 * a) v 8

/-- `MemRead(a)` during the command or host access whose draw counter is `key` (R13, R48, R50). -/
def memRead (key : Nat) (m : Memory) (a : Nat) : Word := m.wordAt (Config.freeMemByte key) a

/-- The host's read of output-window word `k`, bytes `8k` to `8k + 7` of `OUT` (R52, R53). -/
def outRead (key : Nat) (m : Memory) (k : Nat) : Word := m.wordAt (Config.freeOutByte key) k

end Sys2Proof.Machine
end

