-- ==== Sys2Proof/Machine/Operands.lean ====
section
/-! DEFINITION. Machine/Operands.lean: the operands a command does not carry in its word (`ROWS`, `COLS`, the matrix address
function) and the checks its operands pass before it has any effect (10_state.md R21, R22; 42_row_ops.md R97;
60_exceptions.md R116, R119 to R125). -/

namespace Sys2Proof.Machine

/-- `ROWS`: the value of `CFG_ROWS`, read afresh by each command (R21). -/
def State.rows (s : State) : Nat := s.cfgRows.toNat

/-- `COLS`: the value of `CFG_COLS`, read afresh by each command (R21). -/
def State.cols (s : State) : Nat := s.cfgCols.toNat

/-- The number of matrix words, `ROWS * COLS * 12`, computed exactly (R22, R48). -/
def State.matrixWords (s : State) : Nat := s.rows * s.cols * 12

/-- `CFG_OK` (R22). -/
def State.cfgOk (s : State) : Bool :=
  decide (3 ≤ s.rows) && decide (s.rows ≤ 65536) && decide (1 ≤ s.cols) && decide (s.matrixWords ≤ s.memWords)

/-- `A(r, c, w)`, the word address of word `w` of block `(r, c)` (R49, R97). -/
def matrixAddr (cols r c w : Nat) : Nat := (r * cols + c) * 12 + w

/-- The error codes of R119. -/
inductive ErrCode where
  | opcode
  | cfg
  | noState
  | row
  | addr
  | len
deriving DecidableEq, Repr

/-- The code's value in `STATUS.ERRCODE` (R119). -/
def ErrCode.value : ErrCode → BitVec 8
  | .opcode => 1
  | .cfg => 2
  | .noState => 3
  | .row => 4
  | .addr => 5
  | .len => 6

/-- One check of R116, with the operand it is made on. Check 1, the encoding, is the decoder's. -/
inductive Check where
  /-- Check 2: `CFG_OK` (R121). -/
  | cfgOk
  /-- Check 3: `SV = 1` (R122). -/
  | stateValid
  /-- Check 4: a row operand is below `ROWS` (R123). -/
  | rowBelow (r : Nat)
  /-- Check 4: `ADDR + 8 <= ROWS * COLS * 12`, computed exactly (R124). -/
  | addrInside (addr : Nat)
  /-- Check 5: `LEN <= OUT_CAP` (R125). -/
  | lenFits (len : Nat)
deriving DecidableEq, Repr

/-- Whether a check passes in the state as it was when the command was accepted (R116). -/
def Check.passes (s : State) : Check → Bool
  | .cfgOk => s.cfgOk
  | .stateValid => s.sv
  | .rowBelow r => decide (r < s.rows)
  | .addrInside addr => decide (addr + 8 ≤ s.matrixWords)
  | .lenFits len => decide (len ≤ s.outCap)

/-- The error code a failed check raises (R116). -/
def Check.code : Check → ErrCode
  | .cfgOk => .cfg
  | .stateValid => .noState
  | .rowBelow _ => .row
  | .addrInside _ => .addr
  | .lenFits _ => .len

/-- The code of the first check that fails, in the order given; later checks are not evaluated (R116, R127). -/
def firstFailure (s : State) : List Check → Option ErrCode
  | [] => none
  | c :: cs => if c.passes s then firstFailure s cs else some c.code

end Sys2Proof.Machine
end

