-- ==== Sys2Proof/Machine/Ops.lean ====
section
/-! DEFINITION. Machine/Ops.lean: the shared operations of a command's life (60_exceptions.md R115 to R118): acceptance,
rejection (the engine's only trap-like event, R117, R128), the host's return from it (R129), completion, and the resets
(70_reset_and_hazards.md R138, R139); and the data path the commands work on. -/

namespace Sys2Proof.Machine

/-- The command word the engine is working on: the latched one (R114). In an idle state, where no step runs a command, it is
the last word written to `CMD`, which is the same word whenever the engine is busy (notes/assumptions/7.md). -/
def State.commandWord (s : State) : Word := s.inflight.getD s.cmd

/-- Rejection with code `e` (R117): the engine records the code and the command word, becomes idle and changes nothing else.
This is the engine's taking of an exception: no pc, mode or mask is saved or changed (R117, R128). -/
def State.reject (e : ErrCode) (s : State) : State :=
  { s with err := true, errCode := e.value, errInfo := s.commandWord, inflight := none }

/-- The host's end of the error condition, a write of 1 to `STATUS.ERR`: `ERR` and `ERRCODE` become 0, `ERRINFO` stays
(R29, R35, R129). -/
def State.clearErr (s : State) : State := { s with err := false, errCode := 0 }

/-- Completion (R118). The draw counter moves on, so that what a later command draws is not tied to what this one drew. -/
def State.complete (s : State) : State := { s with inflight := none, done := true, draws := s.draws + 1 }

/-- Acceptance of the command word `w` by an idle engine with `ERR = 0` (R115). -/
def State.accept (w : Word) (s : State) : State := { s with inflight := some w, done := false, cmd := w }

/-- A host write of `w` to `CMD` while the engine is idle: dropped while `ERR = 1`, accepted otherwise (R31, R34, R115). -/
def State.issue (w : Word) (s : State) : State := if s.err then { s with drop := true, cmd := w } else s.accept w

/-- A command: the checks in their order, then rejection by the first that fails, or the whole effect and completion
(R114, R116 to R118). -/
def runCommand (checks : List Check) (effect : State → State) (s : State) : Host.Outcome State Fault Refusal :=
  match firstFailure s checks with
  | some e => .next (s.reject e)
  | none => .next (effect s).complete

/-- What the matrix and sponge commands work on: the sponge state and the matrix memory. -/
structure Datapath where
  sponge : Sponge
  mem : Memory
deriving DecidableEq, Repr

/-- Run a computation of the data path on the state; every other field stays. -/
def State.onDatapath (f : Datapath → Datapath) (s : State) : State :=
  { s with sponge := (f ⟨s.sponge, s.mem⟩).sponge, mem := (f ⟨s.sponge, s.mem⟩).mem }

/-- Sixteen state words that are draws (R138, R139). -/
def drawnSponge (key : Nat) : Sponge := Vector.ofFn fun i => Config.freeStateWord key i.val

/-- Every register at its reset value, `S` drawn, `MEM` and `OUT` and the instance's parameters kept: the soft reset (R139). The
events to come and the data the host last read are not the engine's. -/
def State.softReset (s : State) : State :=
  { State.reset with
    sponge := drawnSponge s.draws
    memWords := s.memWords
    outCap := s.outCap
    stepOrder := s.stepOrder
    mem := s.mem
    out := s.out
    events := s.events
    rdata := s.rdata
    draws := s.draws + 1 }

/-- The hardware reset: as the soft reset, and `MEM` and `OUT` become unspecified, with no byte written (R43, R138). A command in
flight is abandoned with none of its effects. -/
def State.hardReset (s : State) : State := { s.softReset with mem := [], out := [] }

end Sys2Proof.Machine
end

