-- ==== Sys2Proof/Machine/Permutation.lean ====
section
/-! DEFINITION. Machine/Permutation.lean: the permutation engine (40_permutation.md): the mixing function, the full and reduced
permutations, and the commands NOP, INIT, PERM12 and PERM1. -/

namespace Sys2Proof.Machine

/-- Right rotation of a word by `n` bits, `1 <= n <= 63` (R11). -/
def rotr (x : Word) (n : Nat) : Word := (x >>> n) ||| (x <<< (64 - n))

/-- `G(a, b, c, d)`: the mixing operation on four state words, its eight lines in order (R82). -/
def mix (s : Sponge) (a b c d : Fin 16) : Sponge :=
  let s := s.set a (s[a] + s[b])
  let s := s.set d (rotr (s[d] ^^^ s[a]) 32)
  let s := s.set c (s[c] + s[d])
  let s := s.set b (rotr (s[b] ^^^ s[c]) 24)
  let s := s.set a (s[a] + s[b])
  let s := s.set d (rotr (s[d] ^^^ s[a]) 16)
  let s := s.set c (s[c] + s[d])
  s.set b (rotr (s[b] ^^^ s[c]) 63)

/-- `Round()`: four column steps, then four diagonal steps (R83, R84); it has no round index (R85). -/
def spongeRound (s : Sponge) : Sponge :=
  let s := mix s 0 4 8 12
  let s := mix s 1 5 9 13
  let s := mix s 2 6 10 14
  let s := mix s 3 7 11 15
  let s := mix s 0 5 10 15
  let s := mix s 1 6 11 12
  let s := mix s 2 7 8 13
  mix s 3 4 9 14

/-- `n` rounds, one after another. -/
def spongeRounds : Nat → Sponge → Sponge
  | 0, s => s
  | n + 1, s => spongeRound (spongeRounds n s)

/-- `F12()`, the full permutation: twelve rounds (R86). -/
def permuteFull (s : Sponge) : Sponge := spongeRounds 12 s

/-- `F1()`, the reduced permutation: one round (R87). -/
def permuteReduced (s : Sponge) : Sponge := spongeRounds 1 s

/-- The state INIT gives: eight zero words, then the Blake2b initialisation vector (R89, R91). -/
def initSponge : Sponge :=
  #v[0, 0, 0, 0, 0, 0, 0, 0,
    0x6A09E667F3BCC908, 0xBB67AE8584CAA73B, 0x3C6EF372FE94F82B, 0xA54FF53A5F1D36F1,
    0x510E527FADE682D1, 0x9B05688C2B3E6C1F, 0x1F83D9ABFB41BD6B, 0x5BE0CD19137E2179]

/-- State word `j`, `0 <= j < 16` (R13, R16); 0 beyond the state, which no command names. -/
def lane (s : Sponge) (j : Nat) : Word := if h : j < 16 then s[j] else 0

/-- `for j = 0 .. n-1: S[j] <- S[j] ^ B[j]`: lane `j` of the block meets `S[j]` only (R94, R95, R101). -/
def absorbLanes (n : Nat) (s : Sponge) (block : Nat → Word) : Sponge :=
  Vector.ofFn fun i : Fin 16 => if i.val < n then s[i] ^^^ block i.val else s[i]

/-- `NOP` (R90): no effect but completion. -/
def execNop (s : State) : Host.Outcome State Fault Refusal := runCommand [] id s

/-- `INIT` (R91): the sponge state and `SV`. -/
def execInit (s : State) : Host.Outcome State Fault Refusal :=
  runCommand [] (fun t => { t with sponge := initSponge, sv := true }) s

/-- `PERM12` (R92). -/
def execPerm12 (s : State) : Host.Outcome State Fault Refusal :=
  runCommand [.stateValid] (fun t => { t with sponge := permuteFull t.sponge }) s

/-- `PERM1` (R93). -/
def execPerm1 (s : State) : Host.Outcome State Fault Refusal :=
  runCommand [.stateValid] (fun t => { t with sponge := permuteReduced t.sponge }) s

end Sys2Proof.Machine
end

