-- ==== Sys2Proof/Machine/AbsorbSqueeze.lean ====
section
/-! DEFINITION. Machine/AbsorbSqueeze.lean: the absorb/squeeze controller (41_absorb_squeeze.md): ABSORB8, ABSORB12 and SQUEEZE. -/

namespace Sys2Proof.Machine

/-- The words of `MEM` from word address `base` as a command reads them before it writes any (R94, R95). -/
def blockAt (key : Nat) (m : Memory) (base : Nat) : Nat → Word := fun j => memRead key m (base + j)

/-- Absorb `n` words of `MEM` from `base` into the first `n` lanes, then the full permutation (R94, R95). -/
def absorbFrom (n base : Nat) (s : State) : State :=
  { s with sponge := permuteFull (absorbLanes n s.sponge (blockAt s.draws s.mem base)) }

/-- `ABSORB8 ADDR` (R94). -/
def execAbsorb8 (addr : Nat) (s : State) : Host.Outcome State Fault Refusal :=
  runCommand [.cfgOk, .stateValid, .addrInside addr] (absorbFrom 8 addr) s

/-- `ABSORB12 RA` (R95): the block at column 0 of row `RA`. -/
def execAbsorb12 (ra : Nat) (s : State) : Host.Outcome State Fault Refusal :=
  runCommand [.cfgOk, .stateValid, .rowBelow ra] (fun t => absorbFrom 12 (matrixAddr t.cols ra 0 0) t) s

/-- Byte `t` of the little-endian serialization of the state, `S[t div 8][8(t mod 8)+7 : 8(t mod 8)]` (R54, R96). -/
def spongeByte (s : Sponge) (t : Nat) : Byte := leByte (lane s (t / 8)) (t % 8)

/-- `for t = 0 .. n-1: OutWrite(k + t, ...)`: copy the first `n` bytes of the serialization to `OUT` from byte `k` (R51, R96). -/
def copyOut (s : Sponge) (m : Memory) (k : Nat) : Nat → Memory
  | 0 => m
  | n + 1 => (copyOut s m k n).setByte (k + n) (spongeByte s n)

/-- The first `n` complete 96-byte chunks of a squeeze: each is copied out and followed by a full permutation (R96). -/
def squeezeChunks : Nat → Sponge × Memory → Sponge × Memory
  | 0, p => p
  | n + 1, p =>
    let q := squeezeChunks n p
    (permuteFull q.1, copyOut q.1 q.2 (96 * n) 96)

/-- The effect of `SQUEEZE LEN`: the complete chunks, then the final partial chunk with no permutation; `OUT_LEN` takes `LEN`
(R36, R96). -/
def squeezeOut (len : Nat) (s : State) : State :=
  { s with
    sponge := (squeezeChunks (len / 96) (s.sponge, s.out)).1
    out := copyOut (squeezeChunks (len / 96) (s.sponge, s.out)).1 (squeezeChunks (len / 96) (s.sponge, s.out)).2
      (96 * (len / 96)) (len % 96)
    outLen := BitVec.ofNat 64 len }

/-- `SQUEEZE LEN` (R96). It needs no configuration. -/
def execSqueeze (len : Nat) (s : State) : Host.Outcome State Fault Refusal :=
  runCommand [.stateValid, .lenFits len] (squeezeOut len) s

end Sys2Proof.Machine
end

