-- ==== Sys2Proof/Machine/RowOps.lean ====
section
/-! DEFINITION. Machine/RowOps.lean: the matrix row operations (42_row_ops.md): the column loop with its ascending and mirrored
columns, the one-word rotation, and the commands SQZROW0, DUPROW1, DUPSETUP and DUPROW. Aliased rows take the meaning of the
sequential order (R62, R106). -/

namespace Sys2Proof.Machine

/-- `for i = 0 .. n-1`: run `step i` in that order (R98). -/
def columnLoop (step : Nat → Datapath → Datapath) : Nat → Datapath → Datapath
  | 0, d => d
  | n + 1, d => step n (columnLoop step n d)

/-- `for j = 0 .. n-1: MemWrite(base + j, f j)`. -/
def storeWords (m : Memory) (base : Nat) (f : Nat → Word) : Nat → Memory
  | 0 => m
  | n + 1 => (storeWords m base f n).setWord (base + n) (f n)

/-- `for j = 0 .. n-1: MemWrite(base + j, MemRead(base + j) ^ f j)`: each word is re-read before it is written (R104, R105). -/
def xorWords (key : Nat) (m : Memory) (base : Nat) (f : Nat → Word) : Nat → Memory
  | 0 => m
  | n + 1 =>
    let m := xorWords key m base f n
    m.setWord (base + n) (memRead key m (base + n) ^^^ f n)

/-- `RotW(p) = S[(p + 11) mod 12]` (R100). -/
def rotW (s : Sponge) (p : Nat) : Word := lane s ((p + 11) % 12)

/-- Iteration `i` of SQZROW0: write the state at the mirrored column, then one round (R99, R102). -/
def sqzrow0Column (cols ra i : Nat) (d : Datapath) : Datapath where
  sponge := permuteReduced d.sponge
  mem := storeWords d.mem (matrixAddr cols ra (cols - 1 - i) 0) (lane d.sponge) 12

/-- Iteration `i` of DUPROW1: absorb the input block at `i`, one round, write `I ^ S` at the mirrored column (R99, R103). -/
def duprow1Column (key cols ra rb i : Nat) (d : Datapath) : Datapath :=
  let input := blockAt key d.mem (matrixAddr cols ra i 0)
  let sponge := permuteReduced (absorbLanes 12 d.sponge input)
  { sponge := sponge
    mem := storeWords d.mem (matrixAddr cols rb (cols - 1 - i) 0) (fun j => input j ^^^ lane sponge j) 12 }

/-- The state of DUPSETUP and DUPROW after absorbing the lane-wise sum of the prev and rand blocks and one round
(R101, R104, R105). -/
def duplexSponge (prev rand : Nat → Word) (s : Sponge) : Sponge :=
  permuteReduced (absorbLanes 12 s (fun j => prev j + rand j))

/-- Iteration `i` of DUPSETUP: the out row at the mirrored column takes `P ^ S`, then the rand row at `i` is updated in place
(R99, R104). -/
def dupsetupColumn (key cols ra rb rc i : Nat) (d : Datapath) : Datapath :=
  let prev := blockAt key d.mem (matrixAddr cols ra i 0)
  let rand := blockAt key d.mem (matrixAddr cols rb i 0)
  let sponge := duplexSponge prev rand d.sponge
  let mem := storeWords d.mem (matrixAddr cols rc (cols - 1 - i) 0) (fun j => prev j ^^^ lane sponge j) 12
  { sponge := sponge, mem := xorWords key mem (matrixAddr cols rb i 0) (rotW sponge) 12 }

/-- Iteration `i` of DUPROW: the out row at `i` is XORed with `S`, then the rand row at `i` is updated in place (R99, R105). -/
def duprowColumn (key cols ra rb rc i : Nat) (d : Datapath) : Datapath :=
  let prev := blockAt key d.mem (matrixAddr cols ra i 0)
  let rand := blockAt key d.mem (matrixAddr cols rb i 0)
  let sponge := duplexSponge prev rand d.sponge
  let mem := xorWords key d.mem (matrixAddr cols rc i 0) (lane sponge) 12
  { sponge := sponge, mem := xorWords key mem (matrixAddr cols rb i 0) (rotW sponge) 12 }

/-- The effect of SQZROW0: `COLS` columns, each with its round, the last included (R102). -/
def sqzrow0Body (ra : Nat) (s : State) : State := s.onDatapath (columnLoop (sqzrow0Column s.cols ra) s.cols)

/-- The effect of DUPROW1 (R103). -/
def duprow1Body (ra rb : Nat) (s : State) : State := s.onDatapath (columnLoop (duprow1Column s.draws s.cols ra rb) s.cols)

/-- The effect of DUPSETUP (R104), also AGSSTEP's (R109). -/
def dupsetupBody (ra rb rc : Nat) (s : State) : State :=
  s.onDatapath (columnLoop (dupsetupColumn s.draws s.cols ra rb rc) s.cols)

/-- The effect of DUPROW (R105), also AGWSTEP's (R112). -/
def duprowBody (ra rb rc : Nat) (s : State) : State :=
  s.onDatapath (columnLoop (duprowColumn s.draws s.cols ra rb rc) s.cols)

/-- `SQZROW0 RA` (R102). -/
def execSqzrow0 (ra : Nat) (s : State) : Host.Outcome State Fault Refusal :=
  runCommand [.cfgOk, .stateValid, .rowBelow ra] (sqzrow0Body ra) s

/-- `DUPROW1 RA, RB` (R103). -/
def execDuprow1 (ra rb : Nat) (s : State) : Host.Outcome State Fault Refusal :=
  runCommand [.cfgOk, .stateValid, .rowBelow ra, .rowBelow rb] (duprow1Body ra rb) s

/-- `DUPSETUP RA, RB, RC` (R104). -/
def execDupsetup (ra rb rc : Nat) (s : State) : Host.Outcome State Fault Refusal :=
  runCommand [.cfgOk, .stateValid, .rowBelow ra, .rowBelow rb, .rowBelow rc] (dupsetupBody ra rb rc) s

/-- `DUPROW RA, RB, RC` (R105). -/
def execDuprow (ra rb rc : Nat) (s : State) : Host.Outcome State Fault Refusal :=
  runCommand [.cfgOk, .stateValid, .rowBelow ra, .rowBelow rb, .rowBelow rc] (duprowBody ra rb rc) s

end Sys2Proof.Machine
end

