-- ==== Sys2Proof/Machine/RowAddress.lean ====
section
/-! DEFINITION. Machine/RowAddress.lean: the row address generator (43_row_addressing.md): the row selector, the Setup and the
Wandering schedules, and the commands SELROW, AGSINIT, AGSSTEP, AGWINIT and AGWSTEP. -/

namespace Sys2Proof.Machine

/-- `S[0] mod ROWS`, the pseudo-random row, of the unsigned value of `S[0]` (R107, R112). -/
def selectedRow (s : State) : Nat := (lane s.sponge 0).toNat % s.rows

/-- `AG_ROWA <- S[0] mod ROWS` (R107). -/
def selectRow (s : State) : State := { s with agRowa := BitVec.ofNat 64 (selectedRow s) }

/-- The Setup schedule's initial values (R108). -/
def loadSetup (s : State) : State :=
  { s with agRow := 2, agPrev := 1, agRowa := 0, agStep := 1, agWindow := 2, agGap := 1 }

/-- The register updates of one Setup iteration, wrapping modulo `2^64` (R109). -/
def advanceSetup (s : State) : State :=
  let rowa := (s.agRowa + s.agStep) &&& (s.agWindow - 1)
  let t := { s with agRowa := rowa, agPrev := s.agRow, agRow := s.agRow + 1 }
  if rowa = 0 then
    match s.stepOrder with
    | .ref => { t with agStep := s.agWindow + s.agGap, agWindow := 2 * s.agWindow, agGap := -s.agGap }
    | .doc => { t with agStep := 2 * s.agWindow + s.agGap, agWindow := 2 * s.agWindow, agGap := -s.agGap }
  else t

/-- The start of one Wandering outer iteration; only the parity of `TAU` matters (R111). -/
def loadWandering (tau : Nat) (s : State) : State :=
  { s with
    agRow := 0
    agBigstep := if tau % 2 = 1 then BitVec.ofNat 64 (s.rows / 2 - 1) else 0xFFFFFFFFFFFFFFFF }

/-- `(AG_ROW + sint(AG_BIGSTEP)) mod ROWS`, in exact integers with the non-negative remainder (R11, R12, R112). -/
def wanderedRow (s : State) : Nat := (((s.agRow.toNat : Int) + s.agBigstep.toInt) % (s.rows : Int)).toNat

/-- The register updates that end one Wandering iteration (R112). -/
def advanceWandering (s : State) : State := { s with agPrev := s.agRow, agRow := BitVec.ofNat 64 (wanderedRow s) }

/-- `SELROW` (R107). -/
def execSelrow (s : State) : Host.Outcome State Fault Refusal := runCommand [.cfgOk, .stateValid] selectRow s

/-- `AGSINIT` (R108). -/
def execAgsinit (s : State) : Host.Outcome State Fault Refusal := runCommand [] loadSetup s

/-- `AGSSTEP` (R109): DUPSETUP on the registers as they were at the start, then the register updates. -/
def execAgsstep (s : State) : Host.Outcome State Fault Refusal :=
  runCommand [.cfgOk, .stateValid, .rowBelow s.agPrev.toNat, .rowBelow s.agRowa.toNat, .rowBelow s.agRow.toNat]
    (fun t => advanceSetup (dupsetupBody t.agPrev.toNat t.agRowa.toNat t.agRow.toNat t)) s

/-- `AGWINIT TAU` (R111). -/
def execAgwinit (tau : Nat) (s : State) : Host.Outcome State Fault Refusal := runCommand [.cfgOk] (loadWandering tau) s

/-- `AGWSTEP` (R112): the selection from `S[0]`, DUPROW on it, then the register updates. -/
def execAgwstep (s : State) : Host.Outcome State Fault Refusal :=
  runCommand [.cfgOk, .stateValid, .rowBelow s.agPrev.toNat, .rowBelow s.agRow.toNat]
    (fun t => advanceWandering (duprowBody t.agPrev.toNat (selectedRow t) t.agRow.toNat (selectRow t))) s

end Sys2Proof.Machine
end

