-- ==== Sys2Proof/Machine/Dispatch.lean ====
section
/-! DEFINITION. Machine/Dispatch.lean: the meaning of each command, one arm per constructor of `Instr`. -/

namespace Sys2Proof.Machine

def exec (i : Instr) (s : State) : Host.Outcome State Fault Refusal :=
  match i with
  | .nop => Sys2Proof.Machine.execNop s
  | .init => Sys2Proof.Machine.execInit s
  | .perm12 => Sys2Proof.Machine.execPerm12 s
  | .perm1 => Sys2Proof.Machine.execPerm1 s
  | .absorb8 addr => Sys2Proof.Machine.execAbsorb8 addr s
  | .absorb12 ra => Sys2Proof.Machine.execAbsorb12 ra s
  | .squeeze len => Sys2Proof.Machine.execSqueeze len s
  | .sqzrow0 ra => Sys2Proof.Machine.execSqzrow0 ra s
  | .duprow1 ra rb => Sys2Proof.Machine.execDuprow1 ra rb s
  | .dupsetup ra rb rc => Sys2Proof.Machine.execDupsetup ra rb rc s
  | .duprow ra rb rc => Sys2Proof.Machine.execDuprow ra rb rc s
  | .selrow => Sys2Proof.Machine.execSelrow s
  | .agsinit => Sys2Proof.Machine.execAgsinit s
  | .agsstep => Sys2Proof.Machine.execAgsstep s
  | .agwinit tau => Sys2Proof.Machine.execAgwinit tau s
  | .agwstep => Sys2Proof.Machine.execAgwstep s

end Sys2Proof.Machine
end

