-- ==== Sys2Proof/Machine/HostBus.lean ====
section
/-! DEFINITION. Machine/HostBus.lean: the host bus (20_memory.md R45 to R53, R59 to R64): the address map, what a read returns and
what a write does to each register and window, and which accesses are held while a command is in flight. -/

namespace Sys2Proof.Machine

/-- The control and status registers of R23. -/
inductive Csr where
  | id
  | ctrl
  | status
  | cmd
  | errInfo
  | cfgRows
  | cfgCols
  | outLen
  | agRow
  | agPrev
  | agRowa
  | agStep
  | agWindow
  | agGap
  | agBigstep
  | capMemWords
  | capOut
  | capFlags
deriving DecidableEq, Repr

/-- A register's offset, which is its host word address (R23). -/
def Csr.offset : Csr → Nat
  | .id => 0x00
  | .ctrl => 0x01
  | .status => 0x02
  | .cmd => 0x03
  | .errInfo => 0x04
  | .cfgRows => 0x05
  | .cfgCols => 0x06
  | .outLen => 0x07
  | .agRow => 0x08
  | .agPrev => 0x09
  | .agRowa => 0x0A
  | .agStep => 0x0B
  | .agWindow => 0x0C
  | .agGap => 0x0D
  | .agBigstep => 0x0E
  | .capMemWords => 0x0F
  | .capOut => 0x10
  | .capFlags => 0x11

/-- The register at an offset; none where the offset is reserved (R23, R38). -/
def csrAt (offset : Nat) : Option Csr :=
  match offset with
  | 0x00 => some .id
  | 0x01 => some .ctrl
  | 0x02 => some .status
  | 0x03 => some .cmd
  | 0x04 => some .errInfo
  | 0x05 => some .cfgRows
  | 0x06 => some .cfgCols
  | 0x07 => some .outLen
  | 0x08 => some .agRow
  | 0x09 => some .agPrev
  | 0x0A => some .agRowa
  | 0x0B => some .agStep
  | 0x0C => some .agWindow
  | 0x0D => some .agGap
  | 0x0E => some .agBigstep
  | 0x0F => some .capMemWords
  | 0x10 => some .capOut
  | 0x11 => some .capFlags
  | _ => none

/-- What a host word address names (R46). -/
inductive Region where
  /-- A register. -/
  | csr (r : Csr)
  /-- Word `i` of the state window. -/
  | stateWord (i : Fin 16)
  /-- Word `k` of the output window. -/
  | outWord (k : Nat)
  /-- Matrix memory word `a`. -/
  | matrixWord (a : Nat)
  /-- A reserved address. -/
  | reserved
deriving DecidableEq, Repr

/-- The host address map (R46, R52) of an instance with `MEM_WORDS = memWords` and `OUT_CAP = outCap`. -/
def regionOf (memWords outCap : Nat) (haddr : HAddr) : Region :=
  let a := haddr.toNat
  if a < 0x100 then
    match csrAt a with
    | some r => .csr r
    | none => .reserved
  else if a < 0x110 then .stateWord (Fin.ofNat 16 (a - 0x100))
  else if a < 0x200 then .reserved
  else if a < 0x400 then
    if 8 * (a - 0x200) + 8 ≤ outCap then .outWord (a - 0x200) else .reserved
  else if a < 0x10000000 then .reserved
  else if a - 0x10000000 < memWords then .matrixWord (a - 0x10000000)
  else .reserved

/-- What a host word address names in the state's instance (R46). -/
def State.region (s : State) (haddr : HAddr) : Region := regionOf s.memWords s.outCap haddr

/-- What a read of a register returns (R20, R21, R23 to R37). -/
def State.readCsr (s : State) : Csr → Word
  | .id => idWord
  | .ctrl => s.ctrlWord
  | .status => s.statusWord
  | .cmd => s.cmd
  | .errInfo => s.errInfo
  | .cfgRows => s.cfgRows
  | .cfgCols => s.cfgCols
  | .outLen => s.outLen
  | .agRow => s.agRow
  | .agPrev => s.agPrev
  | .agRowa => s.agRowa
  | .agStep => s.agStep
  | .agWindow => s.agWindow
  | .agGap => s.agGap
  | .agBigstep => s.agBigstep
  | .capMemWords => BitVec.ofNat 64 s.memWords
  | .capOut => BitVec.ofNat 64 s.outCap
  | .capFlags => s.capFlagsWord

/-- What a read of a region returns: a state word is a draw while `SV = 0` (R19), unwritten bytes of `MEM` and `OUT` are draws
(R50, R53), a reserved address reads 0 (R47). -/
def State.readRegion (s : State) : Region → Word
  | .csr r => s.readCsr r
  | .stateWord i => if s.sv then s.sponge[i] else Config.freeStateWord s.draws i.val
  | .outWord k => outRead s.draws s.out k
  | .matrixWord a => memRead s.draws s.mem a
  | .reserved => 0

/-- A write to `CTRL`: with `SRST` set a soft reset, which discards the written enables; else the two enables (R25, R139). -/
def State.writeCtrl (v : Word) (s : State) : State :=
  if v.getLsbD 2 then s.softReset else { s with ieDone := v.getLsbD 0, ieErr := v.getLsbD 1 }

/-- A write to `STATUS`: 1 in bit 1, 2 or 4 clears `DONE`, `ERR` (and `ERRCODE`) or `DROP`; nothing else changes (R26, R28, R29,
R31). -/
def State.writeStatus (v : Word) (s : State) : State :=
  let s := if v.getLsbD 1 then { s with done := false } else s
  let s := if v.getLsbD 2 then s.clearErr else s
  if v.getLsbD 4 then { s with drop := false } else s

/-- What a write to a register does (R20, R21, R25, R26, R34); a write to a read-only register is ignored (R47). -/
def State.writeCsr (v : Word) (s : State) : Csr → State
  | .id => s
  | .ctrl => s.writeCtrl v
  | .status => s.writeStatus v
  | .cmd => s.issue v
  | .errInfo => s
  | .cfgRows => { s with cfgRows := v }
  | .cfgCols => { s with cfgCols := v }
  | .outLen => s
  | .agRow => { s with agRow := v }
  | .agPrev => { s with agPrev := v }
  | .agRowa => { s with agRowa := v }
  | .agStep => { s with agStep := v }
  | .agWindow => { s with agWindow := v }
  | .agGap => { s with agGap := v }
  | .agBigstep => { s with agBigstep := v }
  | .capMemWords => s
  | .capOut => s
  | .capFlags => s

/-- What a write to a region does: a state word is stored whatever `SV` is (R19), a matrix word is stored (R48), the output window
and the reserved addresses ignore it (R47, R52). -/
def State.writeRegion (v : Word) (s : State) : Region → State
  | .csr r => s.writeCsr v r
  | .stateWord i => { s with sponge := s.sponge.set i v }
  | .outWord _ => s
  | .matrixWord a => { s with mem := s.mem.setWord a v }
  | .reserved => s

/-- What a host read of `haddr` returns (R45). -/
def State.busRead (s : State) (haddr : HAddr) : Word := s.readRegion (s.region haddr)

/-- What a host write of `v` to `haddr` does (R45). -/
def State.busWrite (haddr : HAddr) (v : Word) (s : State) : State := s.writeRegion v (s.region haddr)

/-- One whole host access (R45, R60): a read returns its word and has no side effect on the engine (R59); the draw counter moves
on. -/
def State.performAccess (a : Access) (s : State) : State :=
  match a with
  | .read haddr => { s with rdata := some (s.busRead haddr), draws := s.draws + 1 }
  | .write haddr v => s.busWrite haddr v

/-- The accesses that are not held while a command is in flight: reads of `STATUS` and of `ID` (R64). -/
def Access.passesHold : Access → Bool
  | .read haddr => decide (haddr.toNat = Csr.status.offset) || decide (haddr.toNat = Csr.id.offset)
  | .write _ _ => false

end Sys2Proof.Machine
end

