-- ==== Sys2Proof/Machine/Engine.lean ====
section
/-! DEFINITION. Machine/Engine.lean: the engine's one step from busy (60_exceptions.md R114), and the interleaving of the engine
with the host's accesses and the platform's resets (20_memory.md R63 to R66; 70_reset_and_hazards.md R138). -/

namespace Sys2Proof.Machine

/-- The engine's step: the latched word is decoded (check 1 of R116) and the command run, or rejected with `ERR_OPCODE` (R78,
R120). An idle engine takes no step and nothing changes (R114, R137). -/
def engineStep (s : State) : Host.Outcome State Fault Refusal :=
  match s.inflight with
  | none => .next s
  | some w =>
    match decode w with
    | .ok i => exec i s
    | .error _ => .next (s.reject .opcode)

/-- One step of the block. The next event decides who moves: the platform resets (R138); the engine takes its turn; a host access
is performed, unless a command is in flight and the access is held, in which case the engine moves and the access stays first
(R64). With no event to come a command in flight is finished (R118). -/
def blockStep (s : State) : Host.Outcome State Fault Refusal :=
  match s.events with
  | [] => engineStep s
  | .engineTurn :: es => engineStep { s with events := es }
  | .hardwareReset :: es => .next (State.hardReset { s with events := es })
  | .access a :: es =>
    if s.busy && !a.passesHold then engineStep s else .next (State.performAccess a { s with events := es })

/-- The events with the engine's turn put first where another event would go before it. -/
def engineFirst : List Event → List Event
  | [] => []
  | e :: es => .engineTurn :: e :: es

end Sys2Proof.Machine
end

