-- ==== Sys2Proof/Machine/Step.lean ====
section
/-! DEFINITION. Machine/Step.lean: the step function, and the state in which a given command word is the one that runs next. -/

namespace Sys2Proof.Machine

/-- One step of the block (R65, R114). -/
def step : State → Host.Outcome State Fault Refusal := blockStep

/-- The state in which the command word of an opcode-table row is in flight and the engine moves next. The engine fetches nothing
(R69): a command comes to run by the host's write to `CMD`, so this is the state right after that write is accepted (R115), and
it stands for the write (notes/assumptions/6.md). -/
def State.withFetchWord (s : State) (nbits w : Nat) : State :=
  { s.accept (tableWord nbits w) with events := engineFirst s.events }

end Sys2Proof.Machine
end

