-- ==== Sys2Proof/Machine/HostProgram.lean ====
section
/-! DEFINITION. Machine/HostProgram.lean: the host's side as the spec writes it: the host operations (30_encoding.md R80), the
macros (R81), the padded message and the derivation sequence (70_reset_and_hazards.md R141, R142). The host is software outside
the engine (00_scope.md R5, R6); these definitions run it over `step`, one access at a time (20_memory.md R65). -/

namespace Sys2Proof.Machine

/-- `wr NAME, v` (R80). -/
def wrReg (r : Csr) (v : Word) : Access := .write (BitVec.ofNat 32 r.offset) v

/-- `rd NAME` (R80). -/
def rdReg (r : Csr) : Access := .read (BitVec.ofNat 32 r.offset)

/-- `wr MEM[a], v` (R48, R80). -/
def wrMem (a : Nat) (v : Word) : Access := .write (BitVec.ofNat 32 (0x10000000 + a)) v

/-- `rd MEM[a]` (R48, R80). -/
def rdMem (a : Nat) : Access := .read (BitVec.ofNat 32 (0x10000000 + a))

/-- `wr S[i], v` (R19, R80). -/
def wrState (i : Fin 16) (v : Word) : Access := .write (BitVec.ofNat 32 (0x100 + i.val)) v

/-- `rd S[i]` (R19, R80). -/
def rdState (i : Fin 16) : Access := .read (BitVec.ofNat 32 (0x100 + i.val))

/-- `rd OUTW[k]` (R52, R80). -/
def rdOut (k : Nat) : Access := .read (BitVec.ofNat 32 (0x200 + k))

/-- `cmd <command>` (R80): the write of its word to `CMD`; none where the assembler refuses an operand (R79). -/
def cmdAccess (i : Instr) : Option Access := (assemble i).map (wrReg .cmd)

/-- Recover from an error: clear `ERR`, and `DROP` (R129, R144). -/
def recoverAccess : Access := wrReg .status 0x14

/-- Abandon a derivation: a soft reset (R139, R144). -/
def abandonAccess : Access := wrReg .ctrl 0x4

/-- The state after a step; every step of this machine gives one. -/
def stepped (s : State) : State :=
  match step s with
  | .next t => t
  | .fault _ => s
  | .refused _ => s

/-- The host makes one access, and the engine is idle after it: a command in flight ends first where it holds the access (R64), and
the command the access issues ends before the host's next access (R65, R80, R118). Three steps are enough for that.

The access stands in place of the events to come: between the accesses of the host's program there is no other access, no write that
R143 forbids and no reset. R143 lets a model assume this duty and asks that it be listed: DESIGN CHOICE, notes/assumptions/15.md. -/
def transact (a : Access) (s : State) : State := stepped (stepped (stepped { s with events := [.access a] }))

/-- Bit `n` of `STATUS` as the host reads it, with the state after the read. -/
def readStatusBit (n : Nat) (s : State) : Bool × State :=
  let t := transact (rdReg .status) s
  ((t.rdata.getD 0).getLsbD n, t)

/-- What the host reads from a register, with the state after the read (R80). -/
def readRegister (r : Csr) (s : State) : Word × State :=
  let t := transact (rdReg r) s
  (t.rdata.getD 0, t)

/-- `cmd`s one after another. None where the assembler refuses one of them (R79): that the host's program then goes no further, and
issues no command in its place, is the model's choice (DESIGN CHOICE, notes/assumptions/14.md). -/
def commands : List Instr → State → Option State
  | [], s => some s
  | i :: is, s =>
    match cmdAccess i with
    | some a => commands is (transact a s)
    | none => none

/-- `do { rd STATUS } while STATUS.BUSY == 1` (R81), at most `fuel` reads; none while it has not ended. -/
def waitLoop : Nat → State → Option State
  | 0, _ => none
  | fuel + 1, s =>
    let r := readStatusBit 0 s
    if r.1 then waitLoop fuel r.2 else some r.2

/-- `waitidle` (R81): the engine finishes its command in one step (R114), so two reads are enough (how often the host polls before
that is notes/assumptions/15.md). -/
def waitIdle (s : State) : Option State := waitLoop 2 s

/-- `absorbmsg ADDR, N` (R81). -/
def absorbMsg (addr n : Nat) (s : State) : Option State := commands ((List.range n).map fun k => .absorb8 (addr + 8 * k)) s

/-- `while STATUS.SDONE == 0 (cmd agsstep)`, at most `fuel` reads of `STATUS`; none while it has not ended (R81). -/
def setupLoop : Nat → State → Option State
  | 0, _ => none
  | fuel + 1, s =>
    let r := readStatusBit 5 s
    if r.1 then some r.2 else (commands [.agsstep] r.2).bind (setupLoop fuel)

/-- `setup` (R81). Its loop ends after `ROWS - 2` steps (R110) or never (once a command is rejected the others are dropped). -/
def setup (s : State) : Option State := (commands [.agsinit] s).bind (setupLoop (s.rows + 1))

/-- `do (cmd agwstep) while STATUS.WZERO == 0`, at most `fuel` times; none while it has not ended (R81). -/
def wanderLoop : Nat → State → Option State
  | 0, _ => none
  | fuel + 1, s =>
    (commands [.agwstep] s).bind fun t =>
      let r := readStatusBit 6 t
      if r.1 then some r.2 else wanderLoop fuel r.2

/-- `wander TAU` (R81). Its loop ends after at most `ROWS` steps (R113) or never (once a command is rejected the others are
dropped). -/
def wander (tau : Nat) (s : State) : Option State := (commands [.agwinit tau] s).bind (wanderLoop (s.rows + 1))

/-- `wander` for `tau = 1 .. n` (R142). -/
def wanderAll : Nat → State → Option State
  | 0, s => some s
  | n + 1, s => (wanderAll n s).bind (wander (n + 1))

/-- `wrapup LEN` (R81): the row read from `AG_ROWA` is absorbed, then the output is squeezed. A row of 65536 or more is no operand of
`absorb12` (R79): the spec does not say what the host does with it, and here its program goes no further (DESIGN CHOICE,
notes/assumptions/14.md). -/
def wrapUp (len : Nat) (s : State) : Option State :=
  let r := readRegister .agRowa s
  commands [.absorb12 r.1.toNat, .squeeze len] r.2

/-- `LE8(v)` (R13). -/
def le8 (v : Nat) : List Byte := (List.range 8).map fun k => leByte (BitVec.ofNat 64 v) k

/-- The padded message's parts before the padding (R141). -/
def messageBody (len timeCost : Nat) (password salt : List Byte) (rows cols : Nat) : List Byte :=
  password ++ salt ++ le8 len ++ le8 password.length ++ le8 salt.length ++ le8 timeCost ++ le8 rows ++ le8 cols ++ le8 128

/-- The length of the padded message, a multiple of 64 (R141). -/
def messageLength (password salt : List Byte) : Nat := (password.length + salt.length + 56 + 63) / 64 * 64

/-- The padded message: zero bytes up to its length, then the last byte of the whole buffer XORed with 1 (R141). -/
def paddedMessage (len timeCost : Nat) (password salt : List Byte) (rows cols : Nat) : List Byte :=
  let body := messageBody len timeCost password salt rows cols
  let n := messageLength password salt
  (body ++ List.replicate (n - body.length) 0).modify (n - 1) (· ^^^ 1)

/-- Word `a` of a byte string, byte `8a + k` in bits `[8k+7:8k]` (R55). -/
def stringWord (bytes : List Byte) (a : Nat) : Word := Memory.wordAt (fun k => bytes.getD k 0) [] a

/-- The host's writes of a byte string into `MEM` from word 0 (R141). -/
def writeMessage (bytes : List Byte) (s : State) : State :=
  (List.range (bytes.length / 8)).foldl (fun t a => transact (wrMem a (stringWord bytes a)) t) s

/-- The preconditions the host checks before a derivation, the two sizes as it reads them from `CAP_MEMWORDS` and `CAP_OUT` (R142). -/
def derivationFits (memWords outCap len timeCost : Nat) (password salt : List Byte) (rows cols : Nat) : Bool :=
  decide (1 ≤ timeCost) && decide (3 ≤ rows) && decide (1 ≤ cols) && decide (rows * cols * 12 ≤ memWords) &&
    decide (len ≤ outCap) && decide (messageLength password salt / 8 ≤ rows * cols * 12)

/-- The derivation sequence up to `SQUEEZE`, Init to WrapUp (R142); none where one of its loops does not end or a command has no
encoding. -/
def deriveKey (len timeCost : Nat) (password salt : List Byte) (rows cols : Nat) (s : State) : Option State :=
  let s := transact (wrReg .cfgRows (BitVec.ofNat 64 rows)) s
  let s := transact (wrReg .cfgCols (BitVec.ofNat 64 cols)) s
  let s := writeMessage (paddedMessage len timeCost password salt rows cols) s
  (commands [.init] s).bind fun s =>
  (absorbMsg 0 (messageLength password salt / 64) s).bind fun s =>
  (commands [.sqzrow0 0, .duprow1 0 1] s).bind fun s =>
  (setup s).bind fun s =>
  (wanderAll timeCost s).bind fun s =>
  wrapUp len s

/-- `rd OUTW[0 .. n-1]` (R80): the words read, the first first, with the state after the last read. -/
def readOutWords : Nat → State → List Word × State
  | 0, s => ([], s)
  | n + 1, s =>
    let p := readOutWords n s
    let t := transact (rdOut n) p.2
    (p.1 ++ [t.rdata.getD 0], t)

/-- The key read back, `OUT[0 .. len-1]`: the bytes below `len` of the words `OUTW[0 .. ceil(len/8)-1]`, byte `k` in bits
`[8(k mod 8)+7 : 8(k mod 8)]` of word `k div 8` (R52, R142, R146). -/
def readKey (len : Nat) (s : State) : List Byte × State :=
  let p := readOutWords ((len + 7) / 8) s
  ((List.range len).map fun k => leByte (p.1.getD (k / 8) 0) (k % 8), p.2)

/-- The end of a derivation run: the host has read back the key after the SQUEEZE, and then `STATUS` (R146). -/
structure DerivationEnd where
  /-- `OUT[0 .. L-1]` as the host read it. -/
  key : List Byte
  /-- `STATUS` as the host read it after the key. -/
  status : Word
  /-- The state the run ends in. -/
  state : State
deriving DecidableEq, Repr

/-- A whole derivation run: the preconditions, the sequence, the key read back (R142, R146), and a read of `STATUS`; none where the
run has no end, or is not begun because a precondition fails. The run is undisturbed: the host keeps the duty of R143 and nothing
resets the engine (DESIGN CHOICE, notes/assumptions/15.md). -/
def runDerivation (len timeCost : Nat) (password salt : List Byte) (rows cols : Nat) (s : State) : Option DerivationEnd :=
  let m := readRegister .capMemWords s
  let o := readRegister .capOut m.2
  if derivationFits m.1.toNat o.1.toNat len timeCost password salt rows cols then
    (deriveKey len timeCost password salt rows cols o.2).map fun t =>
      let k := readKey len t
      let r := readRegister .status k.2
      { key := k.1, status := r.1, state := r.2 }
  else none

/-- The result of an ended run: its key, if `BUSY`, `ERR` and `DROP` are all 0; no key otherwise (R146). -/
def DerivationEnd.result (e : DerivationEnd) : Option (List Byte) :=
  if e.status.getLsbD 0 || e.status.getLsbD 2 || e.status.getLsbD 4 then none else some e.key

/-- The key an undisturbed derivation produces (notes/assumptions/15.md); none where its run has no end or has not produced one
(R146). -/
def derivedKey (len timeCost : Nat) (password salt : List Byte) (rows cols : Nat) (s : State) : Option (List Byte) :=
  (runDerivation len timeCost password salt rows cols s).bind DerivationEnd.result

end Sys2Proof.Machine
end

