-- ==== Sys2Proof/Safety.lean ====
section
/-! DEFINITION. Safety.lean: what the claims speak of: the states the engine keeps to, a run of commands, and when a run has
produced a key. -/

namespace Sys2Proof.Machine

/-- The instance's parameters are legal (R9). -/
abbrev State.LegalInstance (s : State) : Prop :=
  36 ≤ s.memWords ∧ s.memWords ≤ 2 ^ 28 ∧ s.outCap % 8 = 0 ∧ 8 ≤ s.outCap ∧ s.outCap ≤ 4096

/-- What holds of the engine at reset and after every step. -/
structure State.Inv (s : State) : Prop where
  /-- The parameters are legal (R9). -/
  instance_legal : s.LegalInstance
  /-- `MEM` is in canonical form. -/
  mem_wf : s.mem.wf
  /-- `MEM` has `MEM_WORDS` words (R48). -/
  mem_inside : s.mem.Inside (8 * s.memWords)
  /-- `OUT` is in canonical form. -/
  out_wf : s.out.wf
  /-- `OUT` has `OUT_CAP` bytes (R51). -/
  out_inside : s.out.Inside s.outCap
  /-- `OUT_LEN` is the length of a squeeze that fitted (R36, R125). -/
  outLen_fits : s.outLen.toNat ≤ s.outCap
  /-- `DONE` and `ERR` are never 1 together (R126). -/
  done_or_err : s.done = true → s.err = false
  /-- `ERRCODE` is 0 whenever `ERR` is 0 (R29). -/
  code_zero : s.err = false → s.errCode = 0
  /-- While `ERR` is 1, `ERRCODE` is one of the codes 1 to 6 (R119). -/
  code_known : s.err = true → 1 ≤ s.errCode.toNat ∧ s.errCode.toNat ≤ 6
  /-- A command in flight was accepted with `ERR = 0`, `DONE` is 0 until it ends, and `CMD` reads its word (R27, R28, R34, R115). -/
  in_flight : ∀ w, s.inflight = some w → s.err = false ∧ s.done = false ∧ s.cmd = w

/-- Run commands one after another on the engine; none where one has no meaning. -/
def execAll : List Instr → State → Option State
  | [], s => some s
  | i :: is, s =>
    match exec i s with
    | .next t => execAll is t
    | .fault _ => none
    | .refused _ => none

/-- The derivation run from `s` has produced `key`: it ended with the key read back after the SQUEEZE as `OUT[0 .. len-1]`, and
`STATUS` read after it shows no command in flight, no error and no dropped command (R146). The run is the undisturbed one, in which the host keeps the duty of R143 and nothing resets the
engine (DESIGN CHOICE, notes/assumptions/15.md): nothing is said of a run with another access or a reset in it. -/
def State.keyProduced (s : State) (len timeCost : Nat) (password salt : List Byte) (rows cols : Nat) (key : List Byte) : Prop :=
  derivedKey len timeCost password salt rows cols s = some key

end Sys2Proof.Machine
end

