-- ==== Sys2Proof/Certificates/Slice0/Obligations.lean ====
section
/-! DEFINITION. Certificates/Slice0/Obligations.lean: the statements for the provers. Each says what the spec's rules say of the
machine; `OBLIGATIONS.json` lists them with the rules they cite. In every statement about a completed command, `draws` is the
model's own draw counter (notes/assumptions/3.md): it moves on by one. -/

open Sys2Proof Sys2Proof.Machine

namespace Sys2Proof.Claims

/-- `MASK_F` and the opcode of a command's row of R76 and R77, as the two tables have them. -/
def rowOf : Instr → Word × Word
  | .nop => (0xFFFFFFFFFFFFFFFF, 0x00)
  | .init => (0xFFFFFFFFFFFFFFFF, 0x01)
  | .perm12 => (0xFFFFFFFFFFFFFFFF, 0x02)
  | .perm1 => (0xFFFFFFFFFFFFFFFF, 0x03)
  | .absorb8 _ => (0xFFFFFF00000000FF, 0x04)
  | .absorb12 _ => (0xFFFFFFFFFF0000FF, 0x05)
  | .squeeze _ => (0xFFFFFF00000000FF, 0x06)
  | .sqzrow0 _ => (0xFFFFFFFFFF0000FF, 0x08)
  | .duprow1 _ _ => (0xFFFFFF00000000FF, 0x09)
  | .dupsetup _ _ _ => (0xFF000000000000FF, 0x0A)
  | .duprow _ _ _ => (0xFF000000000000FF, 0x0B)
  | .selrow => (0xFFFFFFFFFFFFFFFF, 0x10)
  | .agsinit => (0xFFFFFFFFFFFFFFFF, 0x11)
  | .agsstep => (0xFFFFFFFFFFFFFFFF, 0x12)
  | .agwinit _ => (0xFFFFFF00000000FF, 0x13)
  | .agwstep => (0xFFFFFFFFFFFFFFFF, 0x14)

/-- The sixteen rows of R76 with their masks of R77. -/
def commandRows : List (Word × Word) :=
  [.nop, .init, .perm12, .perm1, .absorb8 0, .absorb12 0, .squeeze 0, .sqzrow0 0, .duprow1 0 0, .dupsetup 0 0 0, .duprow 0 0 0,
    .selrow, .agsinit, .agsstep, .agwinit 0, .agwstep].map rowOf

/-- `CFG_OK` in the words of R22. -/
abbrev CfgOk (s : State) : Prop :=
  3 ≤ s.cfgRows.toNat ∧ s.cfgRows.toNat ≤ 65536 ∧ 1 ≤ s.cfgCols.toNat ∧ s.cfgRows.toNat * s.cfgCols.toNat * 12 ≤ s.memWords

/-- The commands of check 2 in R116. -/
def usesConfiguration : Instr → Bool
  | .absorb8 _ | .absorb12 _ | .sqzrow0 _ | .duprow1 _ _ | .dupsetup _ _ _ | .duprow _ _ _ => true
  | .selrow | .agsstep | .agwinit _ | .agwstep => true
  | .nop | .init | .perm12 | .perm1 | .squeeze _ | .agsinit => false

/-- The commands of check 3 in R116: every command except NOP, INIT, AGSINIT and AGWINIT. -/
def readsState : Instr → Bool
  | .nop | .init | .agsinit | .agwinit _ => false
  | .perm12 | .perm1 | .absorb8 _ | .absorb12 _ | .squeeze _ | .sqzrow0 _ | .duprow1 _ _ | .dupsetup _ _ _ | .duprow _ _ _ => true
  | .selrow | .agsstep | .agwstep => true

/-- The row operands of check 4 in R116. -/
def rowOperands (s : State) : Instr → List Nat
  | .absorb12 ra | .sqzrow0 ra => [ra]
  | .duprow1 ra rb => [ra, rb]
  | .dupsetup ra rb rc | .duprow ra rb rc => [ra, rb, rc]
  | .agsstep => [s.agPrev.toNat, s.agRowa.toNat, s.agRow.toNat]
  | .agwstep => [s.agPrev.toNat, s.agRow.toNat]
  | .nop | .init | .perm12 | .perm1 | .absorb8 _ | .squeeze _ | .selrow | .agsinit | .agwinit _ => []

/-- The error code of the first of checks 2 to 5 of R116 that a command fails, as the table has them; none if all pass. -/
def failingCode (s : State) (i : Instr) : Option Nat :=
  if usesConfiguration i = true ∧ ¬CfgOk s then some 2
  else if readsState i = true ∧ s.sv = false then some 3
  else if ∃ r ∈ rowOperands s i, s.cfgRows.toNat ≤ r then some 4
  else
    match i with
    | .absorb8 addr => if s.cfgRows.toNat * s.cfgCols.toNat * 12 < addr + 8 then some 5 else none
    | .squeeze len => if s.outCap < len then some 6 else none
    | _ => none

/-- The error code of the first check of R116 that a command word fails; check 1 by the masks of R77. -/
def failingCodeOfWord (s : State) (w : Word) : Option Nat :=
  if ∀ r ∈ commandRows, w &&& r.1 ≠ r.2 then some 1
  else
    match decode w with
    | .ok i => failingCode s i
    | .error _ => none

/-- The commands that write `MEM` (R44). -/
def writesMatrix : Instr → Bool
  | .sqzrow0 _ | .duprow1 _ _ | .dupsetup _ _ _ | .duprow _ _ _ | .agsstep | .agwstep => true
  | .nop | .init | .perm12 | .perm1 | .absorb8 _ | .absorb12 _ | .squeeze _ | .selrow | .agsinit | .agwinit _ => false

/-- `x` is the state `S` with the block `B` XORed into its first `n` words (R94, R95, R101). -/
abbrev Absorbed (n : Nat) (S : Sponge) (B : Nat → Word) (x : Sponge) : Prop :=
  ∀ j : Fin 16, x[j] = if j.val < n then S[j] ^^^ B j.val else S[j]

/-- A host word address is reserved (R23, R46, R52): no register, no state word, no word of `OUT` or of `MEM` stands there. -/
abbrev ReservedAddress (s : State) (h : HAddr) : Prop :=
  (0x12 ≤ h.toNat ∧ h.toNat ≤ 0xFF) ∨ (0x110 ≤ h.toNat ∧ h.toNat ≤ 0x1FF) ∨
    (0x200 ≤ h.toNat ∧ h.toNat ≤ 0x3FF ∧ s.outCap ≤ 8 * (h.toNat - 0x200)) ∨
    (0x400 ≤ h.toNat ∧ h.toNat ≤ 0x0FFFFFFF) ∨ 0x10000000 + s.memWords ≤ h.toNat

/-- The byte address `a` lies in block `(r, c)` of the matrix (R97). -/
abbrev InBlock (s : State) (r c a : Nat) : Prop := ∃ w < 12, a / 8 = matrixAddr s.cfgCols.toNat r c w

end Sys2Proof.Claims

open Sys2Proof.Claims

/-! ### Encoding -/

/-- For every command whose operands fit their fields, decoding its encoding gives it back: no operand bit is dropped. -/
def Obligations.DecodeOfEncodeIsIdentity : Prop := ∀ i : Instr, i.wellFormed = true → decode (encode i) = .ok i

/-- Every word has one meaning: a word that decodes to a command is that command's encoding, and its operands fit. -/
def Obligations.EncodeOfDecodeIsIdentity : Prop :=
  ∀ (w : Word) (i : Instr), decode w = .ok i → encode i = w ∧ i.wellFormed = true

/-- R77: a word is the command of a row exactly when its masked bits are the row's opcode; it matches at most one row; a word that
matches none is no command. -/
def Obligations.DecoderFollowsMaskTable : Prop :=
  (∀ w : Word, ∀ r ∈ commandRows, (∃ i, decode w = .ok i ∧ rowOf i = r) ↔ w &&& r.1 = r.2) ∧
  (∀ w : Word, ∀ r ∈ commandRows, ∀ r' ∈ commandRows, w &&& r.1 = r.2 → w &&& r'.1 = r'.2 → r = r') ∧
  (∀ w : Word, (∀ r ∈ commandRows, w &&& r.1 ≠ r.2) → ∃ e, decode w = .error e)

/-- The command words that the spec writes out decode to the commands it gives them for (R79, R90 to R96, R102 to R105, R111). -/
def Obligations.SpecCommandWordsDecode : Prop :=
  decode 0x0000000000000000 = .ok .nop ∧ decode 0x0000000000000001 = .ok .init ∧
  decode 0x0000000000001C04 = .ok (.absorb8 28) ∧ decode 0x000000FFFFFFFF04 = .ok (.absorb8 0xFFFFFFFF) ∧
  decode 0x0000000000000205 = .ok (.absorb12 2) ∧ decode 0x0000000000006406 = .ok (.squeeze 100) ∧
  decode 0x0000000001000009 = .ok (.duprow1 0 1) ∧ decode 0x000002000000010A = .ok (.dupsetup 1 0 2) ∧
  decode 0x000000000100020B = .ok (.duprow 2 1 0) ∧ decode 0x0000000000000113 = .ok (.agwinit 1) ∧
  decode 0x0000000000000007 = .error (.reservedOpcode 7) ∧ decode 0x0000000000000100 = .error (.reservedBits 0) ∧
  decode 0x010000000000000A = .error (.reservedBits 0x0A)

/-- When the engine moves and the latched word decodes to `i`, the step of the block is `exec i` at that state, less the engine's
turn if that was the next event. When the engine moves (at its turn in the list of events, before a held access, or with no event
left) is the model's choice of how to write the interleavings of R65: notes/assumptions/5.md, DESIGN CHOICE. -/
def Obligations.StepRunsDecodedCommand : Prop :=
  ∀ (s : State) (w : Word) (i : Instr), s.inflight = some w → decode w = .ok i →
    (s.events = [] → step s = exec i s) ∧
    (∀ es, s.events = .engineTurn :: es → step s = exec i { s with events := es }) ∧
    (∀ a es, s.events = .access a :: es → a.passesHold = false → step s = exec i s)

/-- A latched word that is no command is rejected with code 1, and nothing else changes (R78, R117, R120). -/
def Obligations.IllegalWordIsRejected : Prop :=
  ∀ (s : State) (w : Word), s.inflight = some w → (∀ r ∈ commandRows, w &&& r.1 ≠ r.2) →
    engineStep s = .next { s with err := true, errCode := 1, errInfo := w, inflight := none }

/-! ### The permutation engine -/

/-- R82: the mixing operation on four distinct words does its eight lines in order, with right rotations by 32, 24, 16 and 63, and
leaves the other twelve words; the worked example. -/
def Obligations.MixingStepDoesItsEightLines : Prop :=
  (∀ (S : Sponge) (a b c d : Fin 16), a ≠ b → a ≠ c → a ≠ d → b ≠ c → b ≠ d → c ≠ d →
    ∀ a1 d1 c1 b1 a2 d2 c2 b2 : Word,
      a1 = S[a] + S[b] → d1 = (S[d] ^^^ a1).rotateRight 32 → c1 = S[c] + d1 → b1 = (S[b] ^^^ c1).rotateRight 24 →
      a2 = a1 + b1 → d2 = (d1 ^^^ a2).rotateRight 16 → c2 = c1 + d2 → b2 = (b1 ^^^ c2).rotateRight 63 →
      (mix S a b c d)[a] = a2 ∧ (mix S a b c d)[b] = b2 ∧ (mix S a b c d)[c] = c2 ∧ (mix S a b c d)[d] = d2 ∧
      ∀ j : Fin 16, j ≠ a → j ≠ b → j ≠ c → j ≠ d → (mix S a b c d)[j] = S[j]) ∧
  (∀ S : Sponge, S[0] = 1 → S[4] = 2 → S[8] = 3 → S[12] = 4 →
    (mix S 0 4 8 12)[0] = 0x0000010000000703 ∧ (mix S 0 4 8 12)[4] = 0x0E06020E020E0E06 ∧
    (mix S 0 4 8 12)[8] = 0x0703000701070003 ∧ (mix S 0 4 8 12)[12] = 0x0703000001070000)

/-- R84: one round is the eight mixing steps in order. -/
def Obligations.RoundIsEightMixingSteps : Prop :=
  ∀ S : Sponge, spongeRound S =
    mix (mix (mix (mix (mix (mix (mix (mix S 0 4 8 12) 1 5 9 13) 2 6 10 14) 3 7 11 15) 0 5 10 15) 1 6 11 12) 2 7 8 13) 3 4 9 14

/-- R86, R87: the full permutation is twelve rounds, the reduced one is one round, so the full is twelve of the reduced. -/
def Obligations.FullPermutationIsTwelveReduced : Prop :=
  ∀ S : Sponge, permuteReduced S = spongeRound S ∧ permuteFull S = spongeRound^[12] S ∧ permuteFull S = permuteReduced^[12] S

/-- R88: the round is a bijection on the state, and so are the two permutations; the all-zero state is a fixed point of each;
rotation satisfies the source's law. -/
def Obligations.PermutationLaws : Prop :=
  (Function.Bijective spongeRound ∧ Function.Bijective permuteReduced ∧ Function.Bijective permuteFull) ∧
  (∀ S : Sponge, (∀ j : Fin 16, S[j] = 0) → spongeRound S = S ∧ permuteReduced S = S ∧ permuteFull S = S) ∧
  (∀ (x : Word) (n : Nat), 1 ≤ n → n ≤ 63 → rotr (rotr x n) (64 - n) = x)

/-- R90: NOP completes in every state and changes nothing else. -/
def Obligations.NopOnlyCompletes : Prop :=
  ∀ s : State, exec .nop s = .next { s with inflight := none, done := true, draws := s.draws + 1 }

/-- R91: the only INIT word; in every state INIT loads eight zero words and the Blake2b initialisation vector, sets `SV`, and
changes nothing else. -/
def Obligations.InitLoadsTheState : Prop :=
  (∀ w : Word, decode w = .ok .init ↔ w = 0x0000000000000001) ∧
  ∀ s : State, exec .init s = .next { s with
    sponge := #v[0, 0, 0, 0, 0, 0, 0, 0, 0x6A09E667F3BCC908, 0xBB67AE8584CAA73B, 0x3C6EF372FE94F82B, 0xA54FF53A5F1D36F1,
      0x510E527FADE682D1, 0x9B05688C2B3E6C1F, 0x1F83D9ABFB41BD6B, 0x5BE0CD19137E2179]
    sv := true, inflight := none, done := true, draws := s.draws + 1 }

/-- R92: the only PERM12 word; PERM12 applies the full permutation to `S` and changes nothing else; with `SV = 0` it is rejected
with code 3; the zero state stays; the worked example. -/
def Obligations.Perm12PermutesTheState : Prop :=
  (∀ w : Word, decode w = .ok .perm12 ↔ w = 0x0000000000000002) ∧
  (∀ s : State, s.sv = true → exec .perm12 s = .next { s with
    sponge := permuteFull s.sponge, inflight := none, done := true, draws := s.draws + 1 }) ∧
  (∀ (s : State) (w : Word), s.inflight = some w → s.sv = false → exec .perm12 s = .next { s with
    err := true, errCode := 3, errInfo := w, inflight := none }) ∧
  permuteFull (Vector.replicate 16 0) = Vector.replicate 16 0 ∧
  (permuteFull initSponge)[0] = 0xE69F10665547562D ∧ (permuteFull initSponge)[1] = 0xFE66E82E6D2AAF27 ∧
  (permuteFull initSponge)[15] = 0xE71689C7EBA1C037

/-- R93: the only PERM1 word; PERM1 applies one round to `S` and changes nothing else; with `SV = 0` it is rejected with code 3;
twelve PERM1 leave the state one PERM12 leaves (but for the model's draw counter); the zero state stays; the worked example. -/
def Obligations.Perm1PermutesTheState : Prop :=
  (∀ w : Word, decode w = .ok .perm1 ↔ w = 0x0000000000000003) ∧
  (∀ s : State, s.sv = true → exec .perm1 s = .next { s with
    sponge := spongeRound s.sponge, inflight := none, done := true, draws := s.draws + 1 }) ∧
  (∀ (s : State) (w : Word), s.inflight = some w → s.sv = false → exec .perm1 s = .next { s with
    err := true, errCode := 3, errInfo := w, inflight := none }) ∧
  (∀ s : State, s.sv = true → ∃ t u, execAll (List.replicate 12 .perm1) s = some t ∧ exec .perm12 s = .next u ∧
    t = { u with draws := t.draws }) ∧
  spongeRound (Vector.replicate 16 0) = Vector.replicate 16 0 ∧
  (permuteReduced initSponge)[0] = 0xD11C2568289A5CE3 ∧ (permuteReduced initSponge)[15] = 0x9AE136CCBDA8C5BE

/-! ### The absorb/squeeze controller -/

/-- R94: ABSORB8 XORs the eight words from `ADDR` into `S[0..7]`, applies the full permutation, and changes nothing else: no byte
of either memory, no register. -/
def Obligations.Absorb8Result : Prop :=
  ∀ (s : State) (addr : Nat), CfgOk s → s.sv = true → addr + 8 ≤ s.cfgRows.toNat * s.cfgCols.toNat * 12 →
    ∃ x, Absorbed 8 s.sponge (fun j => memRead s.draws s.mem (addr + j)) x ∧
      exec (.absorb8 addr) s = .next { s with
        sponge := permuteFull x, inflight := none, done := true, draws := s.draws + 1 }

/-- R95: ABSORB12 XORs the block at column 0 of row `RA` into `S[0..11]`, applies the full permutation, and changes nothing else. -/
def Obligations.Absorb12Result : Prop :=
  ∀ (s : State) (ra : Nat), CfgOk s → s.sv = true → ra < s.cfgRows.toNat →
    ∃ x, Absorbed 12 s.sponge (fun j => memRead s.draws s.mem ((ra * s.cfgCols.toNat + 0) * 12 + j)) x ∧
      exec (.absorb12 ra) s = .next { s with
        sponge := permuteFull x, inflight := none, done := true, draws := s.draws + 1 }

/-- R96: byte `k` of the output is byte `k mod 96` of the little-endian serialization of the state after `k div 96` full
permutations; the state is left after `LEN div 96` of them; bytes of `OUT` from `LEN` on, and everything else, stay. -/
def Obligations.SqueezeResult : Prop :=
  ∀ (s : State) (len : Nat), s.sv = true → len ≤ s.outCap →
    ∃ out, exec (.squeeze len) s = .next { s with
        sponge := permuteFull^[len / 96] s.sponge, out := out, outLen := BitVec.ofNat 64 len
        inflight := none, done := true, draws := s.draws + 1 } ∧
      (∀ k < len, out.byte? k = some (leByte (lane (permuteFull^[k / 96] s.sponge) (k % 96 / 8)) (k % 8))) ∧
      (∀ k, len ≤ k → out.byte? k = s.out.byte? k)

/-- R96's derived remark: for one state, two squeezes agree on the bytes below both lengths. -/
def Obligations.SqueezePrefixesAgree : Prop :=
  ∀ (s t t' : State) (len len' : Nat), s.sv = true → len ≤ s.outCap → len' ≤ s.outCap →
    exec (.squeeze len) s = .next t → exec (.squeeze len') s = .next t' →
    ∀ k, k < len → k < len' → t.out.byte? k = t'.out.byte? k

/-! ### The row operations -/

/-- R102: SQZROW0 writes the state after `i` rounds to the block at column `COLS-1-i`, word for word, and leaves the state after
`COLS` rounds; every byte outside row `RA`, and everything else, stays. -/
def Obligations.Sqzrow0Result : Prop :=
  ∀ (s : State) (ra : Nat), CfgOk s → s.sv = true → ra < s.cfgRows.toNat →
    ∃ m, exec (.sqzrow0 ra) s = .next { s with
        sponge := spongeRound^[s.cfgCols.toNat] s.sponge, mem := m, inflight := none, done := true, draws := s.draws + 1 } ∧
      (∀ key, ∀ i < s.cfgCols.toNat, ∀ j < 12,
        memRead key m (matrixAddr s.cfgCols.toNat ra (s.cfgCols.toNat - 1 - i) j) = lane (spongeRound^[i] s.sponge) j) ∧
      (∀ a, (∀ c < s.cfgCols.toNat, ¬InBlock s ra c a) → m.byte? a = s.mem.byte? a)

/-- R103, rows equal or not: there are the states and the matrix memories between the columns, the first being those of `s`;
iteration `i` absorbs the input block as it then is, applies one round, and stores `I ^ S` at the mirrored column of row `RB`,
leaving every other byte; DUPROW1 leaves the last of them and changes nothing else. The stored words are the same for every later
reader (every draw key). -/
def Obligations.Duprow1Result : Prop :=
  ∀ (s : State) (ra rb : Nat), CfgOk s → s.sv = true → ra < s.cfgRows.toNat → rb < s.cfgRows.toNat →
    ∃ (σ : Nat → Sponge) (μ : Nat → Memory),
      exec (.duprow1 ra rb) s = .next { s with
        sponge := σ s.cfgCols.toNat, mem := μ s.cfgCols.toNat, inflight := none, done := true, draws := s.draws + 1 } ∧
      σ 0 = s.sponge ∧ μ 0 = s.mem ∧
      ∀ i < s.cfgCols.toNat,
        (∃ x, Absorbed 12 (σ i) (fun j => memRead s.draws (μ i) (matrixAddr s.cfgCols.toNat ra i j)) x ∧
          σ (i + 1) = spongeRound x) ∧
        (∀ key, ∀ j < 12, memRead key (μ (i + 1)) (matrixAddr s.cfgCols.toNat rb (s.cfgCols.toNat - 1 - i) j) =
          memRead s.draws (μ i) (matrixAddr s.cfgCols.toNat ra i j) ^^^ lane (σ (i + 1)) j) ∧
        (∀ a, ¬InBlock s rb (s.cfgCols.toNat - 1 - i) a → (μ (i + 1)).byte? a = (μ i).byte? a)

/-- R104 and its aliased cases of R106, rows equal or not: iteration `i` absorbs the lane-wise wraparound sum of the prev and rand
blocks as they then are, applies one round, stores `P ^ S` at the mirrored column of row `RC`, then XORs the rotated state into the
rand block (into the block just stored, where the two are the same block), leaving every other byte; nothing else changes. The words
stored are the same for every later reader (every draw key). -/
def Obligations.DupsetupResult : Prop :=
  ∀ (s : State) (ra rb rc : Nat), CfgOk s → s.sv = true → ra < s.cfgRows.toNat → rb < s.cfgRows.toNat → rc < s.cfgRows.toNat →
    ∃ (σ : Nat → Sponge) (μ : Nat → Memory),
      exec (.dupsetup ra rb rc) s = .next { s with
        sponge := σ s.cfgCols.toNat, mem := μ s.cfgCols.toNat, inflight := none, done := true, draws := s.draws + 1 } ∧
      σ 0 = s.sponge ∧ μ 0 = s.mem ∧
      ∀ i < s.cfgCols.toNat,
        (∃ x, Absorbed 12 (σ i) (fun j => memRead s.draws (μ i) (matrixAddr s.cfgCols.toNat ra i j) +
            memRead s.draws (μ i) (matrixAddr s.cfgCols.toNat rb i j)) x ∧ σ (i + 1) = spongeRound x) ∧
        (∀ key, ∀ p < 12, memRead key (μ (i + 1)) (matrixAddr s.cfgCols.toNat rb i p) =
          (if rc = rb ∧ s.cfgCols.toNat - 1 - i = i
            then memRead s.draws (μ i) (matrixAddr s.cfgCols.toNat ra i p) ^^^ lane (σ (i + 1)) p
            else memRead s.draws (μ i) (matrixAddr s.cfgCols.toNat rb i p)) ^^^ lane (σ (i + 1)) ((p + 11) % 12)) ∧
        (¬(rc = rb ∧ s.cfgCols.toNat - 1 - i = i) → ∀ key, ∀ j < 12,
          memRead key (μ (i + 1)) (matrixAddr s.cfgCols.toNat rc (s.cfgCols.toNat - 1 - i) j) =
            memRead s.draws (μ i) (matrixAddr s.cfgCols.toNat ra i j) ^^^ lane (σ (i + 1)) j) ∧
        (∀ a, ¬InBlock s rc (s.cfgCols.toNat - 1 - i) a → ¬InBlock s rb i a → (μ (i + 1)).byte? a = (μ i).byte? a)

/-- R105, rows equal or not: iteration `i` absorbs the lane-wise wraparound sum of the prev and rand blocks as they then are,
applies one round, XORs the state into the out block at column `i`, then XORs the rotated state into the rand block, leaving every
other byte; nothing else changes. The words stored are the same for every later reader (every draw key). -/
def Obligations.DuprowResult : Prop :=
  ∀ (s : State) (ra rb rc : Nat), CfgOk s → s.sv = true → ra < s.cfgRows.toNat → rb < s.cfgRows.toNat → rc < s.cfgRows.toNat →
    ∃ (σ : Nat → Sponge) (μ : Nat → Memory),
      exec (.duprow ra rb rc) s = .next { s with
        sponge := σ s.cfgCols.toNat, mem := μ s.cfgCols.toNat, inflight := none, done := true, draws := s.draws + 1 } ∧
      σ 0 = s.sponge ∧ μ 0 = s.mem ∧
      ∀ i < s.cfgCols.toNat,
        (∃ x, Absorbed 12 (σ i) (fun j => memRead s.draws (μ i) (matrixAddr s.cfgCols.toNat ra i j) +
            memRead s.draws (μ i) (matrixAddr s.cfgCols.toNat rb i j)) x ∧ σ (i + 1) = spongeRound x) ∧
        (∀ key, ∀ p < 12, memRead key (μ (i + 1)) (matrixAddr s.cfgCols.toNat rb i p) =
          (if rc = rb
            then memRead s.draws (μ i) (matrixAddr s.cfgCols.toNat rb i p) ^^^ lane (σ (i + 1)) p
            else memRead s.draws (μ i) (matrixAddr s.cfgCols.toNat rb i p)) ^^^ lane (σ (i + 1)) ((p + 11) % 12)) ∧
        (rc ≠ rb → ∀ key, ∀ j < 12,
          memRead key (μ (i + 1)) (matrixAddr s.cfgCols.toNat rc i j) =
            memRead s.draws (μ i) (matrixAddr s.cfgCols.toNat rc i j) ^^^ lane (σ (i + 1)) j) ∧
        (∀ a, ¬InBlock s rc i a → ¬InBlock s rb i a → (μ (i + 1)).byte? a = (μ i).byte? a)

/-- R106, the three DUPROW rows of its table. The states between the columns obey the recurrence of R105 in every case: column `i`
absorbs the sum `P + Q` of the blocks as the command found them and applies one round. With those states: where out and rand are the
same row its block `i` ends as `Q ^ S ^ RotW`; where prev and rand are the same row the sum is `2 * P`; where prev and out are the
same row (and rand another) its block `i` ends as `P ^ S`. The blocks' words end so for every later reader (every draw key). -/
def Obligations.DuprowAliasedRows : Prop :=
  ∀ (s t : State) (ra rb rc : Nat), CfgOk s → s.sv = true → ra < s.cfgRows.toNat → rb < s.cfgRows.toNat → rc < s.cfgRows.toNat →
    exec (.duprow ra rb rc) s = .next t →
    ∃ σ : Nat → Sponge, σ 0 = s.sponge ∧ σ s.cfgCols.toNat = t.sponge ∧
      ∀ i < s.cfgCols.toNat,
        (∃ x, Absorbed 12 (σ i) (fun j => memRead s.draws s.mem (matrixAddr s.cfgCols.toNat ra i j) +
            memRead s.draws s.mem (matrixAddr s.cfgCols.toNat rb i j)) x ∧ σ (i + 1) = spongeRound x) ∧
        (rc = rb → ∀ key, ∀ p < 12, memRead key t.mem (matrixAddr s.cfgCols.toNat rb i p) =
          memRead s.draws s.mem (matrixAddr s.cfgCols.toNat rb i p) ^^^ lane (σ (i + 1)) p ^^^ lane (σ (i + 1)) ((p + 11) % 12)) ∧
        (ra = rb → ∃ x, Absorbed 12 (σ i) (fun j => 2 * memRead s.draws s.mem (matrixAddr s.cfgCols.toNat ra i j)) x ∧
          σ (i + 1) = spongeRound x) ∧
        (ra = rc → rb ≠ rc → ∀ key, ∀ j < 12, memRead key t.mem (matrixAddr s.cfgCols.toNat ra i j) =
          memRead s.draws s.mem (matrixAddr s.cfgCols.toNat ra i j) ^^^ lane (σ (i + 1)) j)

/-! ### The row address generator -/

/-- R107: SELROW puts the unsigned `S[0] mod ROWS`, which is below `ROWS`, into `AG_ROWA` and changes nothing else. -/
def Obligations.SelrowResult : Prop :=
  ∀ s : State, CfgOk s → s.sv = true →
    s.sponge[0].toNat % s.cfgRows.toNat < s.cfgRows.toNat ∧
    exec .selrow s = .next { s with
      agRowa := BitVec.ofNat 64 (s.sponge[0].toNat % s.cfgRows.toNat), inflight := none, done := true, draws := s.draws + 1 }

/-- R108: AGSINIT loads the six registers of the Setup schedule, in every state, and changes nothing else. -/
def Obligations.AgsinitResult : Prop :=
  ∀ s : State, exec .agsinit s = .next { s with
    agRow := 2, agPrev := 1, agRowa := 0, agStep := 1, agWindow := 2, agGap := 1
    inflight := none, done := true, draws := s.draws + 1 }

/-- R109: AGSSTEP does what DUPSETUP does on the rows of `AG_PREV`, `AG_ROWA`, `AG_ROW`, and advances the schedule registers from
the values they had at the start, in the order of the instance; nothing else changes. -/
def Obligations.AgsstepResult : Prop :=
  ∀ s : State, CfgOk s → s.sv = true → s.agPrev.toNat < s.cfgRows.toNat → s.agRowa.toNat < s.cfgRows.toNat →
    s.agRow.toNat < s.cfgRows.toNat →
    ∃ u, exec (.dupsetup s.agPrev.toNat s.agRowa.toNat s.agRow.toNat) s = .next u ∧ u.done = true ∧ u.err = s.err ∧
      exec .agsstep s = .next { u with
        agRowa := (s.agRowa + s.agStep) &&& (s.agWindow - 1)
        agPrev := s.agRow
        agRow := s.agRow + 1
        agStep := if (s.agRowa + s.agStep) &&& (s.agWindow - 1) = 0
          then (if s.stepOrder = .ref then s.agWindow + s.agGap else 2 * s.agWindow + s.agGap) else s.agStep
        agWindow := if (s.agRowa + s.agStep) &&& (s.agWindow - 1) = 0 then 2 * s.agWindow else s.agWindow
        agGap := if (s.agRowa + s.agStep) &&& (s.agWindow - 1) = 0 then -s.agGap else s.agGap }

/-- R110, items 1 to 4, for both orders: from AGSINIT with `CFG_OK` and `SV`, the `k`-th AGSSTEP (up to `ROWS - 2` of them) finds
`AG_ROW = 2 + k`, `AG_PREV = AG_ROW - 1` and `AG_ROWA` below `AG_ROW` and not `AG_PREV`; none is rejected; `AG_WINDOW` is a power of
two and `AG_GAP` is `+1` or `-1`; `SDONE` is 1 exactly after the last. -/
def Obligations.SetupScheduleLaws : Prop :=
  ∀ s : State, CfgOk s → s.sv = true → s.err = false →
    ∀ k ≤ s.cfgRows.toNat - 2, ∃ t, execAll (.agsinit :: List.replicate k .agsstep) s = some t ∧
      t.err = false ∧ t.done = true ∧ t.agRow.toNat = 2 + k ∧ t.agPrev.toNat = 1 + k ∧
      (∃ n, t.agWindow.toNat = 2 ^ n) ∧ (t.agGap = 1 ∨ t.agGap = -1) ∧
      (k < s.cfgRows.toNat - 2 → t.agRowa.toNat < t.agRow.toNat ∧ t.agRowa ≠ t.agPrev) ∧
      (t.sdone = true ↔ k = s.cfgRows.toNat - 2)

/-- R111: AGWINIT sets `AG_ROW` to 0 and `AG_BIGSTEP` to `ROWS div 2 - 1` for odd `TAU` and to `-1` for even `TAU`, whatever `SV` is,
and changes nothing else. -/
def Obligations.AgwinitResult : Prop :=
  ∀ (s : State) (tau : Nat), CfgOk s →
    (tau % 2 = 1 → exec (.agwinit tau) s = .next { s with
      agRow := 0, agBigstep := BitVec.ofNat 64 (s.cfgRows.toNat / 2 - 1), inflight := none, done := true, draws := s.draws + 1 }) ∧
    (tau % 2 = 0 → exec (.agwinit tau) s = .next { s with
      agRow := 0, agBigstep := 0xFFFFFFFFFFFFFFFF, inflight := none, done := true, draws := s.draws + 1 })

/-- R112: AGWSTEP does what DUPROW does on the rows of `AG_PREV`, of `S[0] mod ROWS` (of the state before it) and of `AG_ROW`; it
leaves the selected row in `AG_ROWA`, the old `AG_ROW` in `AG_PREV`, and in `AG_ROW` the exact sum of the old one and the signed
`AG_BIGSTEP` reduced to `[0, ROWS)`; nothing else changes. -/
def Obligations.AgwstepResult : Prop :=
  ∀ s : State, CfgOk s → s.sv = true → s.agPrev.toNat < s.cfgRows.toNat → s.agRow.toNat < s.cfgRows.toNat →
    ∃ (u : State) (r : Nat),
      exec (.duprow s.agPrev.toNat (s.sponge[0].toNat % s.cfgRows.toNat) s.agRow.toNat) s = .next u ∧
      u.done = true ∧ u.err = s.err ∧
      (r : Int) = ((s.agRow.toNat : Int) + s.agBigstep.toInt) % (s.cfgRows.toNat : Int) ∧ r < s.cfgRows.toNat ∧
      exec .agwstep s = .next { u with
        agRowa := BitVec.ofNat 64 (s.sponge[0].toNat % s.cfgRows.toNat)
        agPrev := s.agRow
        agRow := BitVec.ofNat 64 r }

/-- R113: from `AG_ROW = 0`, with `b = sint(AG_BIGSTEP) mod ROWS` and `g = gcd(b, ROWS)`, `n` AGWSTEPs run without an error and leave
`AG_ROW = n * b mod ROWS`; `AG_ROW` is 0 again exactly after the multiples of `ROWS / g` of them; the out rows of a pass are all the
rows exactly when `g = 1`. -/
def Obligations.WanderingPassLength : Prop :=
  ∀ s : State, CfgOk s → s.sv = true → s.err = false → s.agRow = 0 → s.agPrev.toNat < s.cfgRows.toNat →
    ∀ b g : Nat, (b : Int) = s.agBigstep.toInt % (s.cfgRows.toNat : Int) → g = Nat.gcd b s.cfgRows.toNat →
      (∀ n, ∃ t, execAll (List.replicate n .agwstep) s = some t ∧ t.err = false ∧ t.agRow.toNat = n * b % s.cfgRows.toNat ∧
        (t.wzero = true ↔ s.cfgRows.toNat / g ∣ n)) ∧
      ((∀ r < s.cfgRows.toNat, ∃ n < s.cfgRows.toNat / g, n * b % s.cfgRows.toNat = r) ↔ g = 1)

/-! ### Checks, rejection and completion -/

/-- R22: what `CFG_OK` is, and that each of the ten commands that use it is rejected with `ERR_CFG` when it is false. -/
def Obligations.ConfigurationValidity : Prop :=
  (∀ s : State, s.cfgOk = true ↔
    3 ≤ s.cfgRows.toNat ∧ s.cfgRows.toNat ≤ 65536 ∧ 1 ≤ s.cfgCols.toNat ∧ s.cfgRows.toNat * s.cfgCols.toNat * 12 ≤ s.memWords) ∧
  (∀ (s : State) (i : Instr) (w : Word), usesConfiguration i = true → s.cfgOk = false → s.inflight = some w →
    exec i s = .next { s with err := true, errCode := 2, errInfo := w, inflight := none })

/-- R116, R117: the first check a word fails gives the error code; the rejection sets `ERR`, `ERRCODE`, `ERRINFO` to the word, ends
`BUSY`, and changes nothing else. -/
def Obligations.FirstFailingCheckRejects : Prop :=
  ∀ (s : State) (w : Word) (c : Nat), s.inflight = some w → failingCodeOfWord s w = some c →
    engineStep s = .next { s with err := true, errCode := BitVec.ofNat 8 c, errInfo := w, inflight := none }

/-- R118: every command ends, whatever the state: it completes when every check passes (`DONE` set, no error field touched), and is
rejected otherwise; either way the engine is idle after it. -/
def Obligations.EveryCommandCompletesOrIsRejected : Prop :=
  ∀ (s : State) (i : Instr), ∃ t, exec i s = .next t ∧ t.inflight = none ∧
    (failingCode s i = none → t.done = true ∧ t.err = s.err ∧ t.errCode = s.errCode ∧ t.errInfo = s.errInfo) ∧
    (failingCode s i ≠ none → t.done = s.done ∧ t.err = true ∧ t.sponge = s.sponge ∧ t.mem = s.mem ∧ t.out = s.out)

/-- Every step of the block answers a next state: nothing the engine, the host or the platform does ends a run. That rejections are
states and no faults is notes/assumptions/10.md (DEDUCED, from R117 and R47); that an idle engine with no event stays as it is,
instead of having no step, is the model's choice, notes/assumptions/5.md (DESIGN CHOICE). -/
def Obligations.StepAlwaysAnswers : Prop := ∀ s : State, ∃ t, step s = .next t

/-! ### Whole-machine rules -/

/-- Every step keeps the invariant: legal parameters, canonical memories inside their bounds, `DONE` and `ERR` never together,
`ERRCODE` 0 or a known code, a command in flight accepted without an error. That the memories are strictly rising lists of written
bytes (`mem_wf`, `out_wf`) is the model's choice of their form, notes/assumptions/4.md (DESIGN CHOICE). -/
def Obligations.StepKeepsInvariant : Prop := ∀ s t : State, s.Inv → step s = .next t → t.Inv

/-- The invariant holds right after a hardware reset. That both memories are then empty lists in canonical form is the model's choice,
notes/assumptions/4.md (DESIGN CHOICE). -/
def Obligations.ResetMeetsInvariant : Prop := State.reset.Inv

/-- R18: `SV` becomes 1 only by a completed INIT and 0 only by a reset of either kind. -/
def Obligations.OnlyInitAndResetsChangeStateValid : Prop :=
  ∀ s t : State, step s = .next t → t.sv ≠ s.sv →
    (t.sv = true ∧ ∃ w, s.inflight = some w ∧ decode w = .ok .init) ∨
    (t.sv = false ∧ ∃ e es, s.events = e :: es ∧
      (e = .hardwareReset ∨ ∃ h v, e = .access (.write h v) ∧ h = 0x00000001 ∧ v.getLsbD 2 = true))

/-- The "written by" column of R20 with R21, R25, R34 and R36, as to commands: which registers each command may change. -/
def Obligations.RegistersWrittenOnlyByTheirCommands : Prop :=
  ∀ (s t : State) (i : Instr), exec i s = .next t →
    (t.agRow ≠ s.agRow → i = .agsinit ∨ i = .agsstep ∨ (∃ tau, i = .agwinit tau) ∨ i = .agwstep) ∧
    (t.agPrev ≠ s.agPrev → i = .agsinit ∨ i = .agsstep ∨ i = .agwstep) ∧
    (t.agRowa ≠ s.agRowa → i = .agsinit ∨ i = .agsstep ∨ i = .selrow ∨ i = .agwstep) ∧
    (t.agStep ≠ s.agStep ∨ t.agWindow ≠ s.agWindow ∨ t.agGap ≠ s.agGap → i = .agsinit ∨ i = .agsstep) ∧
    (t.agBigstep ≠ s.agBigstep → ∃ tau, i = .agwinit tau) ∧
    (t.outLen ≠ s.outLen ∨ t.out ≠ s.out → ∃ len, i = .squeeze len) ∧
    (t.cfgRows = s.cfgRows ∧ t.cfgCols = s.cfgCols ∧ t.ieDone = s.ieDone ∧ t.ieErr = s.ieErr ∧ t.cmd = s.cmd ∧ t.drop = s.drop) ∧
    (t.memWords = s.memWords ∧ t.outCap = s.outCap ∧ t.stepOrder = s.stepOrder ∧ t.events = s.events ∧ t.rdata = s.rdata)

/-- R48, R51: a command writes no byte of `MEM` outside the matrix, none at all unless it is a row command, and no byte of `OUT`
unless it is a SQUEEZE and the byte is below its length. -/
def Obligations.CommandsWriteOnlyTheMatrix : Prop :=
  ∀ (s t : State) (i : Instr), exec i s = .next t →
    (∀ a, 8 * (s.cfgRows.toNat * s.cfgCols.toNat * 12) ≤ a → t.mem.byte? a = s.mem.byte? a) ∧
    (writesMatrix i = false → t.mem = s.mem) ∧
    (∀ k, (∀ len, i = .squeeze len → len ≤ k) → t.out.byte? k = s.out.byte? k)

/-- R48: no command reads a word of `MEM` outside the matrix: two states that differ only in those bytes lead, by the same command,
to states that differ only in those bytes. -/
def Obligations.CommandsReadOnlyTheMatrix : Prop :=
  ∀ (s t : State) (i : Instr) (m : Memory),
    (∀ a < 8 * (s.cfgRows.toNat * s.cfgCols.toNat * 12), m.byte? a = s.mem.byte? a) → exec i s = .next t →
    ∃ m', exec i { s with mem := m } = .next { t with mem := m' } ∧
      ∀ a < 8 * (s.cfgRows.toNat * s.cfgCols.toNat * 12), m'.byte? a = t.mem.byte? a

/-- R18, R19: while `SV` is 0 nothing depends on the content of `S`: a step from two states that differ only in `S` gives states that
differ only in `S`, and equal states once `SV` is 1. -/
def Obligations.UnspecifiedStateIsNeverObserved : Prop :=
  ∀ (s t : State) (x : Sponge), s.sv = false → step s = .next t →
    ∃ y, step { s with sponge := x } = .next { t with sponge := y } ∧ (t.sv = true → y = t.sponge)

/-! ### Registers and the host bus -/

/-- R26: a host read of `STATUS` gives its fields, and 0 in the reserved bits; it reads `0x60` after reset; a write clears `DONE`, `ERR` (with
`ERRCODE`) and `DROP` where it has a 1 and changes nothing else. -/
def Obligations.StatusRegister : Prop :=
  (∀ s : State, (s.busRead 0x00000002).getLsbD 0 = s.busy ∧ (s.busRead 0x00000002).getLsbD 1 = s.done ∧
    (s.busRead 0x00000002).getLsbD 2 = s.err ∧ (s.busRead 0x00000002).getLsbD 3 = s.sv ∧
    (s.busRead 0x00000002).getLsbD 4 = s.drop ∧ (s.busRead 0x00000002).getLsbD 5 = s.sdone ∧
    (s.busRead 0x00000002).getLsbD 6 = s.wzero ∧ (s.busRead 0x00000002).getLsbD 7 = s.irq ∧
    (s.busRead 0x00000002).extractLsb' 8 8 = s.errCode ∧ (s.busRead 0x00000002).extractLsb' 16 48 = 0) ∧
  State.reset.busRead 0x00000002 = 0x0000000000000060 ∧
  (∀ (s : State) (v : Word) (es : List Event), s.busy = false → s.events = .access (.write 0x00000002 v) :: es →
    step s = .next { s with
      done := s.done && !v.getLsbD 1, err := s.err && !v.getLsbD 2
      errCode := if v.getLsbD 2 then 0 else s.errCode, drop := s.drop && !v.getLsbD 4, events := es })

/-- R32, R33: a host read of `STATUS` has bit 5 set exactly when `AG_ROW >= CFG_ROWS`, and bit 6 exactly when `AG_ROW = 0`. -/
def Obligations.LoopExitBits : Prop :=
  ∀ s : State,
    ((s.busRead 0x00000002).getLsbD 5 = true ↔ s.cfgRows.toNat ≤ s.agRow.toNat) ∧
    ((s.busRead 0x00000002).getLsbD 6 = true ↔ s.agRow = 0)

/-- R126: bit 7 of `STATUS` is the level of the interrupt line; a new command, clearing the status bit, clearing the enable or a
reset puts it down when it has the one cause the engine's states allow. -/
def Obligations.InterruptLine : Prop :=
  ∀ s : State,
    ((s.busRead 0x00000002).getLsbD 7 = true ↔ (s.done = true ∧ s.ieDone = true) ∨ (s.err = true ∧ s.ieErr = true)) ∧
    (∀ w, s.err = false → (s.issue w).irq = false) ∧
    ((s.writeStatus 0x6).irq = false) ∧ ((s.writeCtrl 0).irq = false) ∧ s.softReset.irq = false ∧ s.hardReset.irq = false

/-- R115: a write of `w` to `CMD` while the engine is idle is dropped when `ERR = 1` and latched otherwise, and reads back as `w` in
both cases; while a command is in flight it is held, the engine moving instead. -/
def Obligations.CommandWriteIsIssuedDroppedOrHeld : Prop :=
  ∀ (s : State) (w : Word) (es : List Event), s.events = .access (.write 0x00000003 w) :: es →
    (s.busy = false → s.err = true → step s = .next { s with drop := true, cmd := w, events := es }) ∧
    (s.busy = false → s.err = false → step s = .next { s with inflight := some w, done := false, cmd := w, events := es }) ∧
    (s.busy = true → step s = engineStep s)

/-- R64: while a command is in flight, every access but a read of `STATUS` or `ID` stays first in line while the engine ends the
command; a read of `STATUS` or `ID` is performed at once and the command stays in flight. -/
def Obligations.HostAccessesAreHeldWhileBusy : Prop :=
  ∀ (s : State) (w : Word) (a : Access) (es : List Event), s.inflight = some w → s.events = .access a :: es →
    (a ≠ .read 0x00000002 → a ≠ .read 0x00000000 → ∃ t, step s = .next t ∧ t.events = .access a :: es ∧ t.inflight = none) ∧
    (a = .read 0x00000002 → ∃ t, step s = .next t ∧ t = { s with events := es, rdata := some s.statusWord, draws := s.draws + 1 } ∧
      s.statusWord.getLsbD 0 = true) ∧
    (a = .read 0x00000000 → step s = .next { s with
      events := es, rdata := some 0x00000000B25B0001, draws := s.draws + 1 })

/-- R47: a read of a reserved address returns 0; a write to a reserved address, to a read-only register or to the output window has
no effect; neither is an error. -/
def Obligations.ReservedAddressesAreInert : Prop :=
  ∀ (s : State) (h : HAddr) (es : List Event), s.busy = false →
    (ReservedAddress s h → s.events = .access (.read h) :: es →
      step s = .next { s with events := es, rdata := some 0, draws := s.draws + 1 }) ∧
    (∀ v, ReservedAddress s h ∨ h.toNat ∈ [0x00, 0x04, 0x07, 0x0F, 0x10, 0x11] ∨ (0x200 ≤ h.toNat ∧ h.toNat ≤ 0x3FF) →
      s.events = .access (.write h v) :: es → step s = .next { s with events := es })

/-- R24, R37: the identification and capability registers read their fixed values, a write to them is ignored, and neither reset
changes them. -/
def Obligations.IdentityAndCapabilityRegisters : Prop :=
  ∀ (s : State) (v : Word),
    (s.busRead 0x00000000 = 0x00000000B25B0001 ∧ s.busRead 0x0000000F = BitVec.ofNat 64 s.memWords ∧
      s.busRead 0x00000010 = BitVec.ofNat 64 s.outCap ∧ (s.stepOrder = .ref → s.busRead 0x00000011 = 0) ∧
      (s.stepOrder = .doc → s.busRead 0x00000011 = 1)) ∧
    (s.busWrite 0x00000000 v = s ∧ s.busWrite 0x0000000F v = s ∧ s.busWrite 0x00000010 v = s ∧ s.busWrite 0x00000011 v = s) ∧
    (∀ t, t = s.softReset ∨ t = s.hardReset → t.memWords = s.memWords ∧ t.outCap = s.outCap ∧ t.stepOrder = s.stepOrder)

/-- R20, R21, R48: what the host writes to a configuration register, an address generator register or a matrix word it reads back
next, every bit of it. -/
def Obligations.HostReadsBackWhatItWrote : Prop :=
  ∀ (s : State) (h : HAddr) (v : Word) (es : List Event), s.busy = false →
    h.toNat ∈ [0x05, 0x06, 0x08, 0x09, 0x0A, 0x0B, 0x0C, 0x0D, 0x0E] ∨
      (0x10000000 ≤ h.toNat ∧ h.toNat < 0x10000000 + s.memWords) →
    s.events = .access (.write h v) :: .access (.read h) :: es →
    ∃ t u, step s = .next t ∧ step t = .next u ∧ u.rdata = some v ∧ u.events = es

/-- R48: a host write to the matrix window stores the word at its address and leaves every other byte, and everything else, as it
was. -/
def Obligations.MatrixWindowStoresOneWord : Prop :=
  ∀ (s : State) (h : HAddr) (a : Nat) (v : Word) (es : List Event), s.busy = false → a < s.memWords →
    h.toNat = 0x10000000 + a → s.events = .access (.write h v) :: es →
    ∃ m, step s = .next { s with mem := m, events := es } ∧ (∀ key, memRead key m a = v) ∧
      (∀ b, b / 8 ≠ a → m.byte? b = s.mem.byte? b)

/-- R19: the state window reads `S[i]` while `SV = 1`, and a write stores `S[i]` whatever `SV` is and leaves `SV` and everything else. -/
def Obligations.StateWindow : Prop :=
  ∀ (s : State) (h : HAddr) (i : Fin 16) (es : List Event), s.busy = false → h.toNat = 0x100 + i.val →
    (s.sv = true → s.events = .access (.read h) :: es →
      step s = .next { s with events := es, rdata := some s.sponge[i], draws := s.draws + 1 }) ∧
    (∀ v, s.events = .access (.write h v) :: es →
      ∃ x : Sponge, step s = .next { s with sponge := x, events := es } ∧ x[i] = v ∧ ∀ j : Fin 16, j ≠ i → x[j] = s.sponge[j])

/-- R52: a read of output-window word `k` packs bytes `8k` to `8k + 7` of `OUT`, the first in the least significant bits. -/
def Obligations.OutputWindowPacksBytes : Prop :=
  ∀ (s : State) (h : HAddr) (k : Nat) (es : List Event), s.busy = false → k < 512 → h.toNat = 0x200 + k → 8 * k + 8 ≤ s.outCap →
    s.events = .access (.read h) :: es →
    ∃ x, step s = .next { s with events := es, rdata := some x, draws := s.draws + 1 } ∧
      ∀ j < 8, ∀ b, s.out.byte? (8 * k + j) = some b → x.extractLsb' (8 * j) 8 = b

/-- R25: `CTRL` reads its two enables and 0 elsewhere, and a write without `SRST` stores the two enables and nothing else. -/
def Obligations.ControlRegister : Prop :=
  (∀ s : State, (s.busRead 0x00000001).getLsbD 0 = s.ieDone ∧ (s.busRead 0x00000001).getLsbD 1 = s.ieErr ∧
    (s.busRead 0x00000001).extractLsb' 2 62 = 0) ∧
  (∀ (s : State) (v : Word) (es : List Event), s.busy = false → v.getLsbD 2 = false →
    s.events = .access (.write 0x00000001 v) :: es →
    step s = .next { s with ieDone := v.getLsbD 0, ieErr := v.getLsbD 1, events := es })

/-- R139: a write to `CTRL` with `SRST` set puts every register at its reset value and `SV` at 0 and keeps `MEM`, `OUT` and the
instance's parameters; nothing is said of the state words. -/
def Obligations.SoftResetKeepsTheMemories : Prop :=
  ∀ (s : State) (v : Word) (es : List Event), s.busy = false → v.getLsbD 2 = true →
    s.events = .access (.write 0x00000001 v) :: es →
    ∃ x : Sponge, step s = .next { State.reset with
      sponge := x, memWords := s.memWords, outCap := s.outCap, stepOrder := s.stepOrder, mem := s.mem, out := s.out
      events := es, rdata := s.rdata, draws := s.draws + 1 }

/-- R138: a hardware reset puts every register at its reset value and `SV` at 0, forgets what was written to `MEM` and `OUT`, and
abandons a command in flight with none of its effects; nothing is said of the state words. -/
def Obligations.HardwareResetAbandonsTheCommand : Prop :=
  ∀ (s : State) (es : List Event), s.events = .hardwareReset :: es →
    ∃ x : Sponge, step s = .next { State.reset with
      sponge := x, memWords := s.memWords, outCap := s.outCap, stepOrder := s.stepOrder
      events := es, rdata := s.rdata, draws := s.draws + 1 }

/-- R43, less what it leaves unspecified: the registers after a hardware reset, `CFG_OK` false, no command in flight, the line
deasserted, no byte of `MEM` or `OUT` written. -/
def Obligations.ResetValues : Prop :=
  (State.reset.sv = false ∧ State.reset.agRow = 0 ∧ State.reset.agPrev = 0 ∧ State.reset.agRowa = 0 ∧ State.reset.agStep = 0 ∧
    State.reset.agWindow = 0 ∧ State.reset.agGap = 0 ∧ State.reset.agBigstep = 0 ∧ State.reset.cfgRows = 0 ∧
    State.reset.cfgCols = 0 ∧ State.reset.cfgOk = false) ∧
  (State.reset.ctrlWord = 0 ∧ State.reset.busy = false ∧ State.reset.done = false ∧ State.reset.err = false ∧
    State.reset.drop = false ∧ State.reset.irq = false ∧ State.reset.errCode = 0 ∧ State.reset.sdone = true ∧
    State.reset.wzero = true ∧ State.reset.inflight = none) ∧
  (State.reset.cmd = 0 ∧ State.reset.errInfo = 0 ∧ State.reset.outLen = 0 ∧ State.reset.readCsr .id = 0x00000000B25B0001 ∧
    State.reset.readCsr .capMemWords = BitVec.ofNat 64 Config.memWords ∧
    State.reset.readCsr .capOut = BitVec.ofNat 64 Config.outCap ∧
    (Config.setupStepOrder = .ref → State.reset.readCsr .capFlags = 0) ∧
    (Config.setupStepOrder = .doc → State.reset.readCsr .capFlags = 1)) ∧
  (∀ a, State.reset.mem.byte? a = none ∧ State.reset.out.byte? a = none)

/-- R20, R21, R24 to R26, R34 to R37: what a host read of each register returns, and that an idle engine's host read gives that word
and changes nothing of the engine (the model's own draw counter moves on, notes/assumptions/3.md). -/
def Obligations.HostReadReturnsTheRegister : Prop :=
  (∀ (s : State) (h : HAddr) (es : List Event), s.busy = false → s.events = .access (.read h) :: es →
    step s = .next { s with events := es, rdata := some (s.busRead h), draws := s.draws + 1 }) ∧
  (∀ s : State, s.busRead 0x00000003 = s.cmd ∧ s.busRead 0x00000004 = s.errInfo ∧ s.busRead 0x00000007 = s.outLen) ∧
  (∀ s : State, s.busRead 0x00000000 = 0x00000000B25B0001 ∧ s.busRead 0x00000001 = s.ctrlWord ∧
    s.busRead 0x00000002 = s.statusWord ∧ s.busRead 0x00000005 = s.cfgRows ∧ s.busRead 0x00000006 = s.cfgCols ∧
    s.busRead 0x00000008 = s.agRow ∧ s.busRead 0x00000009 = s.agPrev ∧ s.busRead 0x0000000A = s.agRowa ∧
    s.busRead 0x0000000B = s.agStep ∧ s.busRead 0x0000000C = s.agWindow ∧ s.busRead 0x0000000D = s.agGap ∧
    s.busRead 0x0000000E = s.agBigstep ∧ s.busRead 0x0000000F = BitVec.ofNat 64 s.memWords ∧
    s.busRead 0x00000010 = BitVec.ofNat 64 s.outCap ∧ s.busRead 0x00000011 = s.capFlagsWord) ∧
  (∀ (s : State) (w : Word), (s.issue w).busRead 0x00000003 = w) ∧
  (∀ (s : State) (w : Word) (e : ErrCode), s.inflight = some w → (s.reject e).busRead 0x00000004 = w) ∧
  (∀ s : State, s.clearErr.busRead 0x00000004 = s.errInfo)
end

