-- ==== Sys2Proof/Laws/Decode.lean ====
section
/-! SUPPORT. Laws/Decode.lean: what one row of the opcode map can answer, and the opcode as masked bits (R71, R77). -/

namespace Sys2Proof

/-- What decoding as one format can answer: the command when the masked word is the opcode, else the refusal by name. -/
theorem decodeAs_cases (f : Format) (w : Word) (i : Instr) :
    (w &&& f.mask = (opcodeOf w).setWidth 64 ∧ decodeAs f w i = .ok i) ∨
      (w &&& f.mask ≠ (opcodeOf w).setWidth 64 ∧ decodeAs f w i = .error (.reservedBits (opcodeOf w))) := by
  by_cases h : w &&& f.mask = (opcodeOf w).setWidth 64
  · exact .inl ⟨h, if_pos h⟩
  · exact .inr ⟨h, if_neg h⟩

theorem decodeAs_ok {f : Format} {w : Word} {i j : Instr} (h : decodeAs f w i = .ok j) :
    w &&& f.mask = (opcodeOf w).setWidth 64 ∧ j = i := by
  rcases decodeAs_cases f w i with ⟨hm, e⟩ | ⟨-, e⟩ <;> rw [e] at h
  · exact ⟨hm, by injection h with h; exact h.symm⟩
  · cases h

/-- The opcode, zero-extended, is the word under the opcode's mask. -/
theorem setWidth_opcodeOf (w : Word) : (opcodeOf w).setWidth 64 = w &&& 0xFF := by
  apply BitVec.eq_of_getLsbD_eq
  intro i hi
  have hf : ∀ j : Fin 64, (0xFF : Word).getLsbD j = decide (j.val < 8) := by decide
  rw [BitVec.getLsbD_and, hf ⟨i, hi⟩]
  simp [opcodeOf, hi, BitVec.getLsbD_extractLsb', Bool.and_comm]

end Sys2Proof
end

