-- ==== Sys2Proof/Laws/HostBus.lean ====
section
/-! SUPPORT. Laws/HostBus.lean: the host address map, range by range (R46, R47, R52), and which accesses pass the hold (R64). -/

namespace Sys2Proof.Machine

theorem regionOf_csr {m o : Nat} {h : HAddr} {r : Csr} (hh : h.toNat < 0x100) (hr : csrAt h.toNat = some r) :
    regionOf m o h = .csr r := by
  simp [regionOf, hh, hr]

theorem regionOf_stateWord {m o : Nat} {h : HAddr} (i : Fin 16) (hh : h.toNat = 0x100 + i.val) :
    regionOf m o h = .stateWord i := by
  have h1 : ¬h.toNat < 0x100 := by omega
  have h2 : h.toNat < 0x110 := by omega
  have h3 : h.toNat - 0x100 = i.val := by omega
  simp [regionOf, h1, h2, h3]

theorem regionOf_outWord {m o k : Nat} {h : HAddr} (hk : k < 512) (hh : h.toNat = 0x200 + k) (ho : 8 * k + 8 ≤ o) :
    regionOf m o h = .outWord k := by
  have h1 : ¬h.toNat < 0x100 := by omega
  have h2 : ¬h.toNat < 0x110 := by omega
  have h3 : ¬h.toNat < 0x200 := by omega
  have h4 : h.toNat < 0x400 := by omega
  have h5 : h.toNat - 0x200 = k := by omega
  simp [regionOf, h1, h2, h3, h4, h5, ho]

theorem regionOf_matrixWord {m o a : Nat} {h : HAddr} (ha : a < m) (hh : h.toNat = 0x10000000 + a) :
    regionOf m o h = .matrixWord a := by
  have h1 : ¬h.toNat < 0x100 := by omega
  have h2 : ¬h.toNat < 0x110 := by omega
  have h3 : ¬h.toNat < 0x200 := by omega
  have h4 : ¬h.toNat < 0x400 := by omega
  have h5 : ¬h.toNat < 0x10000000 := by omega
  have h6 : h.toNat - 0x10000000 = a := by omega
  simp [regionOf, h1, h2, h3, h4, h5, h6, ha]

/-- The offsets above the last register are reserved (R23). -/
theorem csrAt_reserved {n : Nat} (h : 0x12 ≤ n) : csrAt n = none := by
  unfold csrAt
  split <;> first | omega | rfl

/-- Only a read of `STATUS` or of `ID` is performed while a command is in flight. -/
theorem passesHold_iff (a : Access) : a.passesHold = true ↔ a = .read 0x00000002 ∨ a = .read 0x00000000 := by
  cases a with
  | read h =>
    have e2 : h.toNat = 2 ↔ h = 2#32 := (BitVec.toNat_inj (y := 2#32))
    have e0 : h.toNat = 0 ↔ h = 0#32 := (BitVec.toNat_inj (y := 0#32))
    simp only [Access.passesHold, Csr.offset, Bool.or_eq_true, Access.read.injEq]
    exact or_congr (decide_eq_true_iff.trans e2) (decide_eq_true_iff.trans e0)
  | write h v => simp [Access.passesHold]

end Sys2Proof.Machine
end

