-- ==== Sys2Proof/Laws/Memory.lean ====
section
/-! SUPPORT. Laws/Memory.lean: read after write, frames and the canonical form of the two memories (R48, R51, R62). -/

namespace Sys2Proof.Machine

/-! ### Bytes -/

theorem Memory.byte?_setByte (m : Memory) (a a' : Nat) (b : Byte) :
    (m.setByte a b).byte? a' = if a' = a then some b else m.byte? a' := by
  induction m with
  | nil =>
    by_cases h : a' = a
    · simp [Memory.setByte, Memory.byte?, h]
    · simp [Memory.setByte, Memory.byte?, h, Ne.symm h]
  | cons c m ih =>
    obtain ⟨k, v⟩ := c
    simp only [Memory.setByte]
    split
    · by_cases h : a' = a
      · simp [Memory.byte?, h]
      · simp [Memory.byte?, h, Ne.symm h]
    · split
      · rename_i h1 h2
        subst h2
        by_cases h : a' = a
        · simp [Memory.byte?, h]
        · simp [Memory.byte?, h, Ne.symm h]
      · rename_i h1 h2
        by_cases hk : k = a'
        · subst hk
          simp [Memory.byte?, Ne.symm h2]
        · simp [Memory.byte?, hk, ih]

@[simp] theorem Memory.byte?_setByte_same (m : Memory) (a : Nat) (b : Byte) : (m.setByte a b).byte? a = some b := by
  simp [Memory.byte?_setByte]

theorem Memory.byte?_setByte_ne (m : Memory) {a a' : Nat} (b : Byte) (h : a' ≠ a) :
    (m.setByte a b).byte? a' = m.byte? a' := by
  simp [Memory.byte?_setByte, h]

/-- A written entry is one of the old ones or the new one. -/
theorem Memory.mem_setByte {m : Memory} {a : Nat} {b : Byte} {c : Host.Cell} (h : c ∈ m.setByte a b) :
    c = (a, b) ∨ c ∈ m := by
  induction m with
  | nil => simpa [Memory.setByte] using h
  | cons d m ih =>
    obtain ⟨k, v⟩ := d
    simp only [Memory.setByte] at h
    split at h
    · simpa using h
    · split at h
      · rcases List.mem_cons.1 h with h | h
        · exact .inl h
        · exact .inr (List.mem_cons_of_mem _ h)
      · rcases List.mem_cons.1 h with h | h
        · exact .inr (h ▸ List.mem_cons_self)
        · exact (ih h).imp id (List.mem_cons_of_mem _)

/-- A byte write keeps the canonical form. -/
theorem Memory.setByte_wf {m : Memory} (a : Nat) (b : Byte) (h : m.wf) : (m.setByte a b).wf := by
  induction m with
  | nil => simp [Memory.setByte, Memory.wf]
  | cons d m ih =>
    obtain ⟨k, v⟩ := d
    obtain ⟨hk, hm⟩ := List.pairwise_cons.1 h
    simp only [Memory.setByte]
    split
    · rename_i hlt
      refine List.pairwise_cons.2 ⟨fun c hc => ?_, h⟩
      rcases List.mem_cons.1 hc with rfl | hc
      · exact hlt
      · exact Nat.lt_trans hlt (hk c hc)
    · split
      · rename_i _ heq
        subst heq
        exact List.pairwise_cons.2 ⟨fun c hc => hk c hc, hm⟩
      · rename_i h1 h2
        refine List.pairwise_cons.2 ⟨fun c hc => ?_, ih hm⟩
        rcases Memory.mem_setByte hc with rfl | hc
        · show k < a
          omega
        · exact hk c hc

theorem Memory.setByte_inside {n : Nat} {m : Memory} {a : Nat} (b : Byte) (h : m.Inside n) (ha : a < n) :
    (m.setByte a b).Inside n := by
  intro c hc
  rcases Memory.mem_setByte hc with rfl | hc
  · exact ha
  · exact h c hc

/-! ### Words -/

theorem Memory.byte?_setBytes (m : Memory) (a : Nat) (v : Word) (n a' : Nat) :
    (m.setBytes a v n).byte? a' = if a ≤ a' ∧ a' < a + n then some (leByte v (a' - a)) else m.byte? a' := by
  induction n with
  | zero =>
    have : ¬(a ≤ a' ∧ a' < a + 0) := by omega
    rw [if_neg this]
    rfl
  | succ n ih =>
    rw [Memory.setBytes, Memory.byte?_setByte, ih]
    by_cases h : a' = a + n
    · subst h
      simp
    · by_cases h' : a ≤ a' ∧ a' < a + n
      · have : a ≤ a' ∧ a' < a + (n + 1) := by omega
        simp [h, h', this]
      · have : ¬(a ≤ a' ∧ a' < a + (n + 1)) := by omega
        simp only [h, h', this, if_false]

theorem Memory.byte?_setWord (m : Memory) (a : Nat) (v : Word) (a' : Nat) :
    (m.setWord a v).byte? a' = if a' / 8 = a then some (leByte v (a' % 8)) else m.byte? a' := by
  rw [Memory.setWord, Memory.byte?_setBytes]
  by_cases h : a' / 8 = a
  · have h1 : 8 * a ≤ a' ∧ a' < 8 * a + 8 := by omega
    have h2 : a' - 8 * a = a' % 8 := by omega
    simp [h, h1, h2]
  · have h1 : ¬(8 * a ≤ a' ∧ a' < 8 * a + 8) := by omega
    simp only [h, h1, if_false]

/-- A word write leaves every byte of every other word alone. -/
theorem Memory.byte?_setWord_ne (m : Memory) {a a' : Nat} (v : Word) (h : a' / 8 ≠ a) :
    (m.setWord a v).byte? a' = m.byte? a' := by
  simp [Memory.byte?_setWord, h]

/-- The eight bytes of a word, put together again, are the word. -/
theorem wordOfBytes (v : Word) :
    leByte v 7 ++ leByte v 6 ++ leByte v 5 ++ leByte v 4 ++ leByte v 3 ++ leByte v 2 ++ leByte v 1 ++ leByte v 0 = v := by
  apply BitVec.eq_of_getLsbD_eq
  intro i hi
  simp only [leByte, BitVec.getLsbD_append, BitVec.getLsbD_extractLsb']
  rcases Nat.lt_or_ge i 8 with h | h
  · simp [h]
  rcases Nat.lt_or_ge i 16 with h | h
  · have : ¬ i < 8 := by omega
    simp [this, show i - 8 < 8 by omega, show 8 + (i - 8) = i by omega]
  rcases Nat.lt_or_ge i 24 with h | h
  · simp [show ¬ i < 8 by omega, show ¬ i - 8 < 8 by omega, show i - 8 - 8 < 8 by omega, show 16 + (i - 8 - 8) = i by omega]
  rcases Nat.lt_or_ge i 32 with h | h
  · simp [show ¬ i < 8 by omega, show ¬ i - 8 < 8 by omega, show ¬ i - 8 - 8 < 8 by omega, show i - 8 - 8 - 8 < 8 by omega,
      show 24 + (i - 8 - 8 - 8) = i by omega]
  rcases Nat.lt_or_ge i 40 with h | h
  · simp [show ¬ i < 8 by omega, show ¬ i - 8 < 8 by omega, show ¬ i - 8 - 8 < 8 by omega, show ¬ i - 8 - 8 - 8 < 8 by omega,
      show i - 8 - 8 - 8 - 8 < 8 by omega, show 32 + (i - 8 - 8 - 8 - 8) = i by omega]
  rcases Nat.lt_or_ge i 48 with h | h
  · simp [show ¬ i < 8 by omega, show ¬ i - 8 < 8 by omega, show ¬ i - 8 - 8 < 8 by omega, show ¬ i - 8 - 8 - 8 < 8 by omega,
      show ¬ i - 8 - 8 - 8 - 8 < 8 by omega, show i - 8 - 8 - 8 - 8 - 8 < 8 by omega,
      show 40 + (i - 8 - 8 - 8 - 8 - 8) = i by omega]
  rcases Nat.lt_or_ge i 56 with h | h
  · simp [show ¬ i < 8 by omega, show ¬ i - 8 < 8 by omega, show ¬ i - 8 - 8 < 8 by omega, show ¬ i - 8 - 8 - 8 < 8 by omega,
      show ¬ i - 8 - 8 - 8 - 8 < 8 by omega, show ¬ i - 8 - 8 - 8 - 8 - 8 < 8 by omega,
      show i - 8 - 8 - 8 - 8 - 8 - 8 < 8 by omega, show 48 + (i - 8 - 8 - 8 - 8 - 8 - 8) = i by omega]
  · simp [show ¬ i < 8 by omega, show ¬ i - 8 < 8 by omega, show ¬ i - 8 - 8 < 8 by omega, show ¬ i - 8 - 8 - 8 < 8 by omega,
      show ¬ i - 8 - 8 - 8 - 8 < 8 by omega, show ¬ i - 8 - 8 - 8 - 8 - 8 < 8 by omega,
      show ¬ i - 8 - 8 - 8 - 8 - 8 - 8 < 8 by omega, show i - 8 - 8 - 8 - 8 - 8 - 8 - 8 < 8 by omega,
      show 56 + (i - 8 - 8 - 8 - 8 - 8 - 8 - 8) = i by omega]

/-- A word is read from its eight bytes only. -/
theorem Memory.wordAt_congr {free : Nat → Byte} {m m' : Memory} {a : Nat}
    (h : ∀ a', a' / 8 = a → m.byte? a' = m'.byte? a') : m.wordAt free a = m'.wordAt free a := by
  simp only [Memory.wordAt, Memory.byteAt]
  rw [h (8 * a) (by omega), h (8 * a + 1) (by omega), h (8 * a + 2) (by omega), h (8 * a + 3) (by omega),
    h (8 * a + 4) (by omega), h (8 * a + 5) (by omega), h (8 * a + 6) (by omega), h (8 * a + 7) (by omega)]

/-- Reading a word after writing a word: the written value at the same address, the old one elsewhere. -/
theorem Memory.wordAt_setWord (free : Nat → Byte) (m : Memory) (a a' : Nat) (v : Word) :
    (m.setWord a v).wordAt free a' = if a' = a then v else m.wordAt free a' := by
  by_cases h : a' = a
  · subst h
    have e : ∀ k, k < 8 → (m.setWord a' v).byteAt free (8 * a' + k) = leByte v k := by
      intro k hk
      have h1 : (8 * a' + k) / 8 = a' := by omega
      have h2 : (8 * a' + k) % 8 = k := by omega
      simp [Memory.byteAt, Memory.byte?_setWord, h1, h2]
    have e0 : (m.setWord a' v).byteAt free (8 * a') = leByte v 0 := by simpa using e 0 (by omega)
    simp only [Memory.wordAt, if_true]
    rw [e 7 (by omega), e 6 (by omega), e 5 (by omega), e 4 (by omega), e 3 (by omega), e 2 (by omega), e 1 (by omega), e0]
    exact wordOfBytes v
  · simp only [h, if_false]
    exact Memory.wordAt_congr fun b hb => Memory.byte?_setWord_ne m v (by omega)

theorem memRead_setWord (key : Nat) (m : Memory) (a a' : Nat) (v : Word) :
    memRead key (m.setWord a v) a' = if a' = a then v else memRead key m a' :=
  Memory.wordAt_setWord _ _ _ _ _

theorem memRead_congr {key : Nat} {m m' : Memory} {a : Nat} (h : ∀ a', a' / 8 = a → m.byte? a' = m'.byte? a') :
    memRead key m a = memRead key m' a :=
  Memory.wordAt_congr h

theorem Memory.setBytes_wf {m : Memory} (a : Nat) (v : Word) (n : Nat) (h : m.wf) : (m.setBytes a v n).wf := by
  induction n with
  | zero => exact h
  | succ n ih => exact Memory.setByte_wf _ _ ih

/-- A word write keeps the canonical form. -/
theorem Memory.setWord_wf {m : Memory} (a : Nat) (v : Word) (h : m.wf) : (m.setWord a v).wf := Memory.setBytes_wf _ _ _ h

theorem Memory.setBytes_inside {n : Nat} {m : Memory} {a : Nat} (v : Word) (k : Nat) (h : m.Inside n) (ha : a + k ≤ n) :
    (m.setBytes a v k).Inside n := by
  induction k with
  | zero => exact h
  | succ k ih => exact Memory.setByte_inside _ (ih (by omega)) (by omega)

/-- A word write inside the first `n` words keeps every written address inside them. -/
theorem Memory.setWord_inside {n : Nat} {m : Memory} {a : Nat} (v : Word) (h : m.Inside (8 * n)) (ha : a < n) :
    (m.setWord a v).Inside (8 * n) :=
  Memory.setBytes_inside v 8 h (by omega)

/-! ### Blocks -/

/-- Reading after a block is stored: the block's words where it lies, the old words elsewhere. -/
theorem memRead_storeWords (key : Nat) (m : Memory) (base : Nat) (f : Nat → Word) (n a : Nat) :
    memRead key (storeWords m base f n) a = if base ≤ a ∧ a < base + n then f (a - base) else memRead key m a := by
  induction n with
  | zero =>
    have : ¬(base ≤ a ∧ a < base + 0) := by omega
    rw [if_neg this]
    rfl
  | succ n ih =>
    rw [storeWords, memRead_setWord, ih]
    by_cases h : a = base + n
    · subst h
      simp
    · by_cases h' : base ≤ a ∧ a < base + n
      · have : base ≤ a ∧ a < base + (n + 1) := by omega
        simp [h, h', this]
      · have : ¬(base ≤ a ∧ a < base + (n + 1)) := by omega
        simp only [h, h', this, if_false]

/-- Reading after a block is XORed in place: the block's words are the old ones as the command read them, XORed, for every later
reader; the other words are as they were. -/
theorem memRead_xorWords (key' key : Nat) (m : Memory) (base : Nat) (f : Nat → Word) (n a : Nat) :
    memRead key' (xorWords key m base f n) a =
      if base ≤ a ∧ a < base + n then memRead key m a ^^^ f (a - base) else memRead key' m a := by
  induction n generalizing key' a with
  | zero =>
    have : ¬(base ≤ a ∧ a < base + 0) := by omega
    rw [if_neg this]
    rfl
  | succ n ih =>
    simp only [xorWords]
    rw [memRead_setWord, ih, ih]
    by_cases h : a = base + n
    · subst h
      have : ¬(base ≤ base + n ∧ base + n < base + n) := by omega
      simp
    · by_cases h' : base ≤ a ∧ a < base + n
      · have : base ≤ a ∧ a < base + (n + 1) := by omega
        simp [h, h', this]
      · have : ¬(base ≤ a ∧ a < base + (n + 1)) := by omega
        simp only [h, h', this, if_false]

theorem byte?_storeWords_outside (m : Memory) (base : Nat) (f : Nat → Word) (n a : Nat)
    (h : a / 8 < base ∨ base + n ≤ a / 8) : (storeWords m base f n).byte? a = m.byte? a := by
  induction n with
  | zero => rfl
  | succ n ih =>
    rw [storeWords, Memory.byte?_setWord_ne _ _ (by omega)]
    exact ih (by omega)

theorem byte?_xorWords_outside (key : Nat) (m : Memory) (base : Nat) (f : Nat → Word) (n a : Nat)
    (h : a / 8 < base ∨ base + n ≤ a / 8) : (xorWords key m base f n).byte? a = m.byte? a := by
  induction n with
  | zero => rfl
  | succ n ih =>
    simp only [xorWords]
    rw [Memory.byte?_setWord_ne _ _ (by omega)]
    exact ih (by omega)

theorem storeWords_wf {m : Memory} (base : Nat) (f : Nat → Word) (n : Nat) (h : m.wf) : (storeWords m base f n).wf := by
  induction n with
  | zero => exact h
  | succ n ih => exact Memory.setWord_wf _ _ ih

theorem xorWords_wf (key : Nat) {m : Memory} (base : Nat) (f : Nat → Word) (n : Nat) (h : m.wf) :
    (xorWords key m base f n).wf := by
  induction n with
  | zero => exact h
  | succ n ih => exact Memory.setWord_wf _ _ ih

theorem storeWords_inside {k : Nat} {m : Memory} {base : Nat} (f : Nat → Word) (n : Nat) (h : m.Inside (8 * k))
    (hb : base + n ≤ k) : (storeWords m base f n).Inside (8 * k) := by
  induction n with
  | zero => exact h
  | succ n ih => exact Memory.setWord_inside _ (ih (by omega)) (by omega)

theorem xorWords_inside (key : Nat) {k : Nat} {m : Memory} {base : Nat} (f : Nat → Word) (n : Nat) (h : m.Inside (8 * k))
    (hb : base + n ≤ k) : (xorWords key m base f n).Inside (8 * k) := by
  induction n with
  | zero => exact h
  | succ n ih => exact Memory.setWord_inside _ (ih (by omega)) (by omega)

/-! ### The output buffer -/

/-- What `OUT` holds after `n` bytes of the serialization are copied out from byte `k`. -/
theorem byte?_copyOut (s : Sponge) (m : Memory) (k n a : Nat) :
    (copyOut s m k n).byte? a = if k ≤ a ∧ a < k + n then some (spongeByte s (a - k)) else m.byte? a := by
  induction n with
  | zero =>
    have : ¬(k ≤ a ∧ a < k + 0) := by omega
    rw [if_neg this]
    rfl
  | succ n ih =>
    rw [copyOut, Memory.byte?_setByte, ih]
    by_cases h : a = k + n
    · subst h
      simp
    · by_cases h' : k ≤ a ∧ a < k + n
      · have : k ≤ a ∧ a < k + (n + 1) := by omega
        simp [h, h', this]
      · have : ¬(k ≤ a ∧ a < k + (n + 1)) := by omega
        simp only [h, h', this, if_false]

theorem copyOut_wf (s : Sponge) {m : Memory} (k n : Nat) (h : m.wf) : (copyOut s m k n).wf := by
  induction n with
  | zero => exact h
  | succ n ih => exact Memory.setByte_wf _ _ ih

theorem copyOut_inside (s : Sponge) {b : Nat} {m : Memory} {k n : Nat} (h : m.Inside b) (hb : k + n ≤ b) :
    (copyOut s m k n).Inside b := by
  induction n with
  | zero => exact h
  | succ n ih => exact Memory.setByte_inside _ (ih (by omega)) (by omega)

/-- The complete chunks of a squeeze: the state is permuted once for each, and chunk `c` is the serialization of the state after
`c` permutations. -/
theorem squeezeChunks_sponge (n : Nat) (p : Sponge × Memory) : (squeezeChunks n p).1 = permuteFull^[n] p.1 := by
  induction n with
  | zero => rfl
  | succ n ih => simp only [squeezeChunks, ih, Function.iterate_succ_apply']

theorem byte?_squeezeChunks (n : Nat) (p : Sponge × Memory) (a : Nat) :
    (squeezeChunks n p).2.byte? a =
      if a < 96 * n then some (spongeByte (permuteFull^[a / 96] p.1) (a % 96)) else p.2.byte? a := by
  induction n with
  | zero => simp [squeezeChunks]
  | succ n ih =>
    simp only [squeezeChunks]
    rw [byte?_copyOut, ih, squeezeChunks_sponge]
    by_cases h : a < 96 * n
    · have h1 : ¬(96 * n ≤ a ∧ a < 96 * n + 96) := by omega
      have h2 : a < 96 * (n + 1) := by omega
      rw [if_neg h1, if_pos h, if_pos h2]
    · by_cases h' : a < 96 * (n + 1)
      · have h1 : 96 * n ≤ a ∧ a < 96 * n + 96 := by omega
        have h2 : a / 96 = n := by omega
        have h3 : a - 96 * n = a % 96 := by omega
        rw [if_pos h1, if_pos h', h2, h3]
      · have h1 : ¬(96 * n ≤ a ∧ a < 96 * n + 96) := by omega
        rw [if_neg h1, if_neg h, if_neg h']

theorem squeezeChunks_wf (n : Nat) {p : Sponge × Memory} (h : p.2.wf) : (squeezeChunks n p).2.wf := by
  induction n with
  | zero => exact h
  | succ n ih =>
    simp only [squeezeChunks]
    exact copyOut_wf (squeezeChunks n p).1 (96 * n) 96 ih

theorem squeezeChunks_inside (n : Nat) {b : Nat} {p : Sponge × Memory} (h : p.2.Inside b) (hb : 96 * n ≤ b) :
    (squeezeChunks n p).2.Inside b := by
  induction n with
  | zero => exact h
  | succ n ih =>
    simp only [squeezeChunks]
    exact copyOut_inside (squeezeChunks n p).1 (k := 96 * n) (n := 96) (ih (by omega)) (by omega)

end Sys2Proof.Machine
end

