-- ==== Sys2Proof/Laws/State.lean ====
section
/-! SUPPORT. Laws/State.lean: what each shared update of the state does to each field, one lemma per field per update. -/

namespace Sys2Proof.Machine

section Reject
variable (e : ErrCode) (s : State)

@[simp] theorem State.reject_sponge : (s.reject e).sponge = s.sponge := rfl
@[simp] theorem State.reject_sv : (s.reject e).sv = s.sv := rfl
@[simp] theorem State.reject_agRow : (s.reject e).agRow = s.agRow := rfl
@[simp] theorem State.reject_agPrev : (s.reject e).agPrev = s.agPrev := rfl
@[simp] theorem State.reject_agRowa : (s.reject e).agRowa = s.agRowa := rfl
@[simp] theorem State.reject_agStep : (s.reject e).agStep = s.agStep := rfl
@[simp] theorem State.reject_agWindow : (s.reject e).agWindow = s.agWindow := rfl
@[simp] theorem State.reject_agGap : (s.reject e).agGap = s.agGap := rfl
@[simp] theorem State.reject_agBigstep : (s.reject e).agBigstep = s.agBigstep := rfl
@[simp] theorem State.reject_cfgRows : (s.reject e).cfgRows = s.cfgRows := rfl
@[simp] theorem State.reject_cfgCols : (s.reject e).cfgCols = s.cfgCols := rfl
@[simp] theorem State.reject_ieDone : (s.reject e).ieDone = s.ieDone := rfl
@[simp] theorem State.reject_ieErr : (s.reject e).ieErr = s.ieErr := rfl
@[simp] theorem State.reject_inflight : (s.reject e).inflight = none := rfl
@[simp] theorem State.reject_done : (s.reject e).done = s.done := rfl
@[simp] theorem State.reject_err : (s.reject e).err = true := rfl
@[simp] theorem State.reject_drop : (s.reject e).drop = s.drop := rfl
@[simp] theorem State.reject_errCode : (s.reject e).errCode = e.value := rfl
@[simp] theorem State.reject_cmd : (s.reject e).cmd = s.cmd := rfl
@[simp] theorem State.reject_errInfo : (s.reject e).errInfo = s.commandWord := rfl
@[simp] theorem State.reject_outLen : (s.reject e).outLen = s.outLen := rfl
@[simp] theorem State.reject_memWords : (s.reject e).memWords = s.memWords := rfl
@[simp] theorem State.reject_outCap : (s.reject e).outCap = s.outCap := rfl
@[simp] theorem State.reject_stepOrder : (s.reject e).stepOrder = s.stepOrder := rfl
@[simp] theorem State.reject_mem : (s.reject e).mem = s.mem := rfl
@[simp] theorem State.reject_out : (s.reject e).out = s.out := rfl
@[simp] theorem State.reject_events : (s.reject e).events = s.events := rfl
@[simp] theorem State.reject_rdata : (s.reject e).rdata = s.rdata := rfl
@[simp] theorem State.reject_draws : (s.reject e).draws = s.draws := rfl

end Reject

section Clearerr
variable (s : State)

@[simp] theorem State.clearErr_sponge : (s.clearErr).sponge = s.sponge := rfl
@[simp] theorem State.clearErr_sv : (s.clearErr).sv = s.sv := rfl
@[simp] theorem State.clearErr_agRow : (s.clearErr).agRow = s.agRow := rfl
@[simp] theorem State.clearErr_agPrev : (s.clearErr).agPrev = s.agPrev := rfl
@[simp] theorem State.clearErr_agRowa : (s.clearErr).agRowa = s.agRowa := rfl
@[simp] theorem State.clearErr_agStep : (s.clearErr).agStep = s.agStep := rfl
@[simp] theorem State.clearErr_agWindow : (s.clearErr).agWindow = s.agWindow := rfl
@[simp] theorem State.clearErr_agGap : (s.clearErr).agGap = s.agGap := rfl
@[simp] theorem State.clearErr_agBigstep : (s.clearErr).agBigstep = s.agBigstep := rfl
@[simp] theorem State.clearErr_cfgRows : (s.clearErr).cfgRows = s.cfgRows := rfl
@[simp] theorem State.clearErr_cfgCols : (s.clearErr).cfgCols = s.cfgCols := rfl
@[simp] theorem State.clearErr_ieDone : (s.clearErr).ieDone = s.ieDone := rfl
@[simp] theorem State.clearErr_ieErr : (s.clearErr).ieErr = s.ieErr := rfl
@[simp] theorem State.clearErr_inflight : (s.clearErr).inflight = s.inflight := rfl
@[simp] theorem State.clearErr_done : (s.clearErr).done = s.done := rfl
@[simp] theorem State.clearErr_err : (s.clearErr).err = false := rfl
@[simp] theorem State.clearErr_drop : (s.clearErr).drop = s.drop := rfl
@[simp] theorem State.clearErr_errCode : (s.clearErr).errCode = 0 := rfl
@[simp] theorem State.clearErr_cmd : (s.clearErr).cmd = s.cmd := rfl
@[simp] theorem State.clearErr_errInfo : (s.clearErr).errInfo = s.errInfo := rfl
@[simp] theorem State.clearErr_outLen : (s.clearErr).outLen = s.outLen := rfl
@[simp] theorem State.clearErr_memWords : (s.clearErr).memWords = s.memWords := rfl
@[simp] theorem State.clearErr_outCap : (s.clearErr).outCap = s.outCap := rfl
@[simp] theorem State.clearErr_stepOrder : (s.clearErr).stepOrder = s.stepOrder := rfl
@[simp] theorem State.clearErr_mem : (s.clearErr).mem = s.mem := rfl
@[simp] theorem State.clearErr_out : (s.clearErr).out = s.out := rfl
@[simp] theorem State.clearErr_events : (s.clearErr).events = s.events := rfl
@[simp] theorem State.clearErr_rdata : (s.clearErr).rdata = s.rdata := rfl
@[simp] theorem State.clearErr_draws : (s.clearErr).draws = s.draws := rfl

end Clearerr

section Complete
variable (s : State)

@[simp] theorem State.complete_sponge : (s.complete).sponge = s.sponge := rfl
@[simp] theorem State.complete_sv : (s.complete).sv = s.sv := rfl
@[simp] theorem State.complete_agRow : (s.complete).agRow = s.agRow := rfl
@[simp] theorem State.complete_agPrev : (s.complete).agPrev = s.agPrev := rfl
@[simp] theorem State.complete_agRowa : (s.complete).agRowa = s.agRowa := rfl
@[simp] theorem State.complete_agStep : (s.complete).agStep = s.agStep := rfl
@[simp] theorem State.complete_agWindow : (s.complete).agWindow = s.agWindow := rfl
@[simp] theorem State.complete_agGap : (s.complete).agGap = s.agGap := rfl
@[simp] theorem State.complete_agBigstep : (s.complete).agBigstep = s.agBigstep := rfl
@[simp] theorem State.complete_cfgRows : (s.complete).cfgRows = s.cfgRows := rfl
@[simp] theorem State.complete_cfgCols : (s.complete).cfgCols = s.cfgCols := rfl
@[simp] theorem State.complete_ieDone : (s.complete).ieDone = s.ieDone := rfl
@[simp] theorem State.complete_ieErr : (s.complete).ieErr = s.ieErr := rfl
@[simp] theorem State.complete_inflight : (s.complete).inflight = none := rfl
@[simp] theorem State.complete_done : (s.complete).done = true := rfl
@[simp] theorem State.complete_err : (s.complete).err = s.err := rfl
@[simp] theorem State.complete_drop : (s.complete).drop = s.drop := rfl
@[simp] theorem State.complete_errCode : (s.complete).errCode = s.errCode := rfl
@[simp] theorem State.complete_cmd : (s.complete).cmd = s.cmd := rfl
@[simp] theorem State.complete_errInfo : (s.complete).errInfo = s.errInfo := rfl
@[simp] theorem State.complete_outLen : (s.complete).outLen = s.outLen := rfl
@[simp] theorem State.complete_memWords : (s.complete).memWords = s.memWords := rfl
@[simp] theorem State.complete_outCap : (s.complete).outCap = s.outCap := rfl
@[simp] theorem State.complete_stepOrder : (s.complete).stepOrder = s.stepOrder := rfl
@[simp] theorem State.complete_mem : (s.complete).mem = s.mem := rfl
@[simp] theorem State.complete_out : (s.complete).out = s.out := rfl
@[simp] theorem State.complete_events : (s.complete).events = s.events := rfl
@[simp] theorem State.complete_rdata : (s.complete).rdata = s.rdata := rfl
@[simp] theorem State.complete_draws : (s.complete).draws = s.draws + 1 := rfl

end Complete

section Accept
variable (w : Word) (s : State)

@[simp] theorem State.accept_sponge : (s.accept w).sponge = s.sponge := rfl
@[simp] theorem State.accept_sv : (s.accept w).sv = s.sv := rfl
@[simp] theorem State.accept_agRow : (s.accept w).agRow = s.agRow := rfl
@[simp] theorem State.accept_agPrev : (s.accept w).agPrev = s.agPrev := rfl
@[simp] theorem State.accept_agRowa : (s.accept w).agRowa = s.agRowa := rfl
@[simp] theorem State.accept_agStep : (s.accept w).agStep = s.agStep := rfl
@[simp] theorem State.accept_agWindow : (s.accept w).agWindow = s.agWindow := rfl
@[simp] theorem State.accept_agGap : (s.accept w).agGap = s.agGap := rfl
@[simp] theorem State.accept_agBigstep : (s.accept w).agBigstep = s.agBigstep := rfl
@[simp] theorem State.accept_cfgRows : (s.accept w).cfgRows = s.cfgRows := rfl
@[simp] theorem State.accept_cfgCols : (s.accept w).cfgCols = s.cfgCols := rfl
@[simp] theorem State.accept_ieDone : (s.accept w).ieDone = s.ieDone := rfl
@[simp] theorem State.accept_ieErr : (s.accept w).ieErr = s.ieErr := rfl
@[simp] theorem State.accept_inflight : (s.accept w).inflight = some w := rfl
@[simp] theorem State.accept_done : (s.accept w).done = false := rfl
@[simp] theorem State.accept_err : (s.accept w).err = s.err := rfl
@[simp] theorem State.accept_drop : (s.accept w).drop = s.drop := rfl
@[simp] theorem State.accept_errCode : (s.accept w).errCode = s.errCode := rfl
@[simp] theorem State.accept_cmd : (s.accept w).cmd = w := rfl
@[simp] theorem State.accept_errInfo : (s.accept w).errInfo = s.errInfo := rfl
@[simp] theorem State.accept_outLen : (s.accept w).outLen = s.outLen := rfl
@[simp] theorem State.accept_memWords : (s.accept w).memWords = s.memWords := rfl
@[simp] theorem State.accept_outCap : (s.accept w).outCap = s.outCap := rfl
@[simp] theorem State.accept_stepOrder : (s.accept w).stepOrder = s.stepOrder := rfl
@[simp] theorem State.accept_mem : (s.accept w).mem = s.mem := rfl
@[simp] theorem State.accept_out : (s.accept w).out = s.out := rfl
@[simp] theorem State.accept_events : (s.accept w).events = s.events := rfl
@[simp] theorem State.accept_rdata : (s.accept w).rdata = s.rdata := rfl
@[simp] theorem State.accept_draws : (s.accept w).draws = s.draws := rfl

end Accept

section Ondatapath
variable (f : Datapath → Datapath) (s : State)

@[simp] theorem State.onDatapath_sponge : (s.onDatapath f).sponge = (f ⟨s.sponge, s.mem⟩).sponge := rfl
@[simp] theorem State.onDatapath_sv : (s.onDatapath f).sv = s.sv := rfl
@[simp] theorem State.onDatapath_agRow : (s.onDatapath f).agRow = s.agRow := rfl
@[simp] theorem State.onDatapath_agPrev : (s.onDatapath f).agPrev = s.agPrev := rfl
@[simp] theorem State.onDatapath_agRowa : (s.onDatapath f).agRowa = s.agRowa := rfl
@[simp] theorem State.onDatapath_agStep : (s.onDatapath f).agStep = s.agStep := rfl
@[simp] theorem State.onDatapath_agWindow : (s.onDatapath f).agWindow = s.agWindow := rfl
@[simp] theorem State.onDatapath_agGap : (s.onDatapath f).agGap = s.agGap := rfl
@[simp] theorem State.onDatapath_agBigstep : (s.onDatapath f).agBigstep = s.agBigstep := rfl
@[simp] theorem State.onDatapath_cfgRows : (s.onDatapath f).cfgRows = s.cfgRows := rfl
@[simp] theorem State.onDatapath_cfgCols : (s.onDatapath f).cfgCols = s.cfgCols := rfl
@[simp] theorem State.onDatapath_ieDone : (s.onDatapath f).ieDone = s.ieDone := rfl
@[simp] theorem State.onDatapath_ieErr : (s.onDatapath f).ieErr = s.ieErr := rfl
@[simp] theorem State.onDatapath_inflight : (s.onDatapath f).inflight = s.inflight := rfl
@[simp] theorem State.onDatapath_done : (s.onDatapath f).done = s.done := rfl
@[simp] theorem State.onDatapath_err : (s.onDatapath f).err = s.err := rfl
@[simp] theorem State.onDatapath_drop : (s.onDatapath f).drop = s.drop := rfl
@[simp] theorem State.onDatapath_errCode : (s.onDatapath f).errCode = s.errCode := rfl
@[simp] theorem State.onDatapath_cmd : (s.onDatapath f).cmd = s.cmd := rfl
@[simp] theorem State.onDatapath_errInfo : (s.onDatapath f).errInfo = s.errInfo := rfl
@[simp] theorem State.onDatapath_outLen : (s.onDatapath f).outLen = s.outLen := rfl
@[simp] theorem State.onDatapath_memWords : (s.onDatapath f).memWords = s.memWords := rfl
@[simp] theorem State.onDatapath_outCap : (s.onDatapath f).outCap = s.outCap := rfl
@[simp] theorem State.onDatapath_stepOrder : (s.onDatapath f).stepOrder = s.stepOrder := rfl
@[simp] theorem State.onDatapath_mem : (s.onDatapath f).mem = (f ⟨s.sponge, s.mem⟩).mem := rfl
@[simp] theorem State.onDatapath_out : (s.onDatapath f).out = s.out := rfl
@[simp] theorem State.onDatapath_events : (s.onDatapath f).events = s.events := rfl
@[simp] theorem State.onDatapath_rdata : (s.onDatapath f).rdata = s.rdata := rfl
@[simp] theorem State.onDatapath_draws : (s.onDatapath f).draws = s.draws := rfl

end Ondatapath

section Softreset
variable (s : State)

@[simp] theorem State.softReset_sponge : (s.softReset).sponge = drawnSponge s.draws := rfl
@[simp] theorem State.softReset_sv : (s.softReset).sv = false := rfl
@[simp] theorem State.softReset_agRow : (s.softReset).agRow = 0 := rfl
@[simp] theorem State.softReset_agPrev : (s.softReset).agPrev = 0 := rfl
@[simp] theorem State.softReset_agRowa : (s.softReset).agRowa = 0 := rfl
@[simp] theorem State.softReset_agStep : (s.softReset).agStep = 0 := rfl
@[simp] theorem State.softReset_agWindow : (s.softReset).agWindow = 0 := rfl
@[simp] theorem State.softReset_agGap : (s.softReset).agGap = 0 := rfl
@[simp] theorem State.softReset_agBigstep : (s.softReset).agBigstep = 0 := rfl
@[simp] theorem State.softReset_cfgRows : (s.softReset).cfgRows = 0 := rfl
@[simp] theorem State.softReset_cfgCols : (s.softReset).cfgCols = 0 := rfl
@[simp] theorem State.softReset_ieDone : (s.softReset).ieDone = false := rfl
@[simp] theorem State.softReset_ieErr : (s.softReset).ieErr = false := rfl
@[simp] theorem State.softReset_inflight : (s.softReset).inflight = none := rfl
@[simp] theorem State.softReset_done : (s.softReset).done = false := rfl
@[simp] theorem State.softReset_err : (s.softReset).err = false := rfl
@[simp] theorem State.softReset_drop : (s.softReset).drop = false := rfl
@[simp] theorem State.softReset_errCode : (s.softReset).errCode = 0 := rfl
@[simp] theorem State.softReset_cmd : (s.softReset).cmd = 0 := rfl
@[simp] theorem State.softReset_errInfo : (s.softReset).errInfo = 0 := rfl
@[simp] theorem State.softReset_outLen : (s.softReset).outLen = 0 := rfl
@[simp] theorem State.softReset_memWords : (s.softReset).memWords = s.memWords := rfl
@[simp] theorem State.softReset_outCap : (s.softReset).outCap = s.outCap := rfl
@[simp] theorem State.softReset_stepOrder : (s.softReset).stepOrder = s.stepOrder := rfl
@[simp] theorem State.softReset_mem : (s.softReset).mem = s.mem := rfl
@[simp] theorem State.softReset_out : (s.softReset).out = s.out := rfl
@[simp] theorem State.softReset_events : (s.softReset).events = s.events := rfl
@[simp] theorem State.softReset_rdata : (s.softReset).rdata = s.rdata := rfl
@[simp] theorem State.softReset_draws : (s.softReset).draws = s.draws + 1 := rfl

end Softreset

section Hardreset
variable (s : State)

@[simp] theorem State.hardReset_sponge : (s.hardReset).sponge = drawnSponge s.draws := rfl
@[simp] theorem State.hardReset_sv : (s.hardReset).sv = false := rfl
@[simp] theorem State.hardReset_agRow : (s.hardReset).agRow = 0 := rfl
@[simp] theorem State.hardReset_agPrev : (s.hardReset).agPrev = 0 := rfl
@[simp] theorem State.hardReset_agRowa : (s.hardReset).agRowa = 0 := rfl
@[simp] theorem State.hardReset_agStep : (s.hardReset).agStep = 0 := rfl
@[simp] theorem State.hardReset_agWindow : (s.hardReset).agWindow = 0 := rfl
@[simp] theorem State.hardReset_agGap : (s.hardReset).agGap = 0 := rfl
@[simp] theorem State.hardReset_agBigstep : (s.hardReset).agBigstep = 0 := rfl
@[simp] theorem State.hardReset_cfgRows : (s.hardReset).cfgRows = 0 := rfl
@[simp] theorem State.hardReset_cfgCols : (s.hardReset).cfgCols = 0 := rfl
@[simp] theorem State.hardReset_ieDone : (s.hardReset).ieDone = false := rfl
@[simp] theorem State.hardReset_ieErr : (s.hardReset).ieErr = false := rfl
@[simp] theorem State.hardReset_inflight : (s.hardReset).inflight = none := rfl
@[simp] theorem State.hardReset_done : (s.hardReset).done = false := rfl
@[simp] theorem State.hardReset_err : (s.hardReset).err = false := rfl
@[simp] theorem State.hardReset_drop : (s.hardReset).drop = false := rfl
@[simp] theorem State.hardReset_errCode : (s.hardReset).errCode = 0 := rfl
@[simp] theorem State.hardReset_cmd : (s.hardReset).cmd = 0 := rfl
@[simp] theorem State.hardReset_errInfo : (s.hardReset).errInfo = 0 := rfl
@[simp] theorem State.hardReset_outLen : (s.hardReset).outLen = 0 := rfl
@[simp] theorem State.hardReset_memWords : (s.hardReset).memWords = s.memWords := rfl
@[simp] theorem State.hardReset_outCap : (s.hardReset).outCap = s.outCap := rfl
@[simp] theorem State.hardReset_stepOrder : (s.hardReset).stepOrder = s.stepOrder := rfl
@[simp] theorem State.hardReset_mem : (s.hardReset).mem = [] := rfl
@[simp] theorem State.hardReset_out : (s.hardReset).out = [] := rfl
@[simp] theorem State.hardReset_events : (s.hardReset).events = s.events := rfl
@[simp] theorem State.hardReset_rdata : (s.hardReset).rdata = s.rdata := rfl
@[simp] theorem State.hardReset_draws : (s.hardReset).draws = s.draws + 1 := rfl

end Hardreset

/-- A state is what its fields are: replacing a field by itself changes nothing. -/
theorem State.onDatapath_id (s : State) : s.onDatapath id = s := rfl

end Sys2Proof.Machine
end

