-- ==== Sys2Proof/Laws/Ops.lean ====
section
/-! SUPPORT. Laws/Ops.lean: what each shared operation can do, said once: the checks, a command's life, the column loop, one step
of the engine and of the block. The proofs cite these instead of unfolding the operations. -/

namespace Sys2Proof.Machine

/-! ### The checks -/

theorem State.cfgOk_iff (s : State) :
    s.cfgOk = true ↔ 3 ≤ s.rows ∧ s.rows ≤ 65536 ∧ 1 ≤ s.cols ∧ s.rows * s.cols * 12 ≤ s.memWords := by
  have h : s.matrixWords = s.rows * s.cols * 12 := rfl
  rw [← h]
  simp [State.cfgOk, and_assoc]

theorem firstFailure_eq_none (s : State) (cs : List Check) :
    firstFailure s cs = none ↔ ∀ c ∈ cs, c.passes s = true := by
  induction cs with
  | nil => simp [firstFailure]
  | cons c cs ih => by_cases h : c.passes s = true <;> simp [firstFailure, h, ih]

theorem firstFailure_eq_some {s : State} {cs : List Check} {e : ErrCode} (h : firstFailure s cs = some e) :
    ∃ c ∈ cs, c.passes s = false ∧ c.code = e := by
  induction cs with
  | nil => simp [firstFailure] at h
  | cons c cs ih =>
    by_cases hc : c.passes s = true
    · simp only [firstFailure, hc, if_true] at h
      obtain ⟨d, hd, hp⟩ := ih h
      exact ⟨d, List.mem_cons_of_mem _ hd, hp⟩
    · refine ⟨c, List.mem_cons_self, by simpa using hc, ?_⟩
      simpa [firstFailure, hc] using h

/-! ### A command's life -/

theorem runCommand_of_passes {cs : List Check} {f : State → State} {s : State} (h : firstFailure s cs = none) :
    runCommand cs f s = .next (f s).complete := by
  simp [runCommand, h]

theorem runCommand_of_fails {cs : List Check} {f : State → State} {s : State} {e : ErrCode}
    (h : firstFailure s cs = some e) : runCommand cs f s = .next (s.reject e) := by
  simp [runCommand, h]

/-- A command always answers a next state: its whole effect and completion, or its rejection. -/
theorem runCommand_cases {cs : List Check} {f : State → State} {s t : State} (h : runCommand cs f s = .next t) :
    (firstFailure s cs = none ∧ t = (f s).complete) ∨ (∃ e, firstFailure s cs = some e ∧ t = s.reject e) := by
  cases hf : firstFailure s cs with
  | none =>
    rw [runCommand_of_passes hf] at h
    exact .inl ⟨rfl, by injection h with h; exact h.symm⟩
  | some e =>
    rw [runCommand_of_fails hf] at h
    exact .inr ⟨e, rfl, by injection h with h; exact h.symm⟩

/-- The checks 2 to 5 of each command, in order (R116). -/
def checksOf (i : Instr) (s : State) : List Check :=
  match i with
  | .nop => []
  | .init => []
  | .perm12 => [.stateValid]
  | .perm1 => [.stateValid]
  | .absorb8 addr => [.cfgOk, .stateValid, .addrInside addr]
  | .absorb12 ra => [.cfgOk, .stateValid, .rowBelow ra]
  | .squeeze len => [.stateValid, .lenFits len]
  | .sqzrow0 ra => [.cfgOk, .stateValid, .rowBelow ra]
  | .duprow1 ra rb => [.cfgOk, .stateValid, .rowBelow ra, .rowBelow rb]
  | .dupsetup ra rb rc => [.cfgOk, .stateValid, .rowBelow ra, .rowBelow rb, .rowBelow rc]
  | .duprow ra rb rc => [.cfgOk, .stateValid, .rowBelow ra, .rowBelow rb, .rowBelow rc]
  | .selrow => [.cfgOk, .stateValid]
  | .agsinit => []
  | .agsstep => [.cfgOk, .stateValid, .rowBelow s.agPrev.toNat, .rowBelow s.agRowa.toNat, .rowBelow s.agRow.toNat]
  | .agwinit _ => [.cfgOk]
  | .agwstep => [.cfgOk, .stateValid, .rowBelow s.agPrev.toNat, .rowBelow s.agRow.toNat]

/-- The effect of each command once its checks pass. -/
def effectOf (i : Instr) (s : State) : State :=
  match i with
  | .nop => s
  | .init => { s with sponge := initSponge, sv := true }
  | .perm12 => { s with sponge := permuteFull s.sponge }
  | .perm1 => { s with sponge := permuteReduced s.sponge }
  | .absorb8 addr => absorbFrom 8 addr s
  | .absorb12 ra => absorbFrom 12 (matrixAddr s.cols ra 0 0) s
  | .squeeze len => squeezeOut len s
  | .sqzrow0 ra => sqzrow0Body ra s
  | .duprow1 ra rb => duprow1Body ra rb s
  | .dupsetup ra rb rc => dupsetupBody ra rb rc s
  | .duprow ra rb rc => duprowBody ra rb rc s
  | .selrow => selectRow s
  | .agsinit => loadSetup s
  | .agsstep => advanceSetup (dupsetupBody s.agPrev.toNat s.agRowa.toNat s.agRow.toNat s)
  | .agwinit tau => loadWandering tau s
  | .agwstep => advanceWandering (duprowBody s.agPrev.toNat (selectedRow s) s.agRow.toNat (selectRow s))

/-- Every arm of `exec` is its checks, then its effect. -/
theorem exec_eq_runCommand (i : Instr) (s : State) : exec i s = runCommand (checksOf i s) (effectOf i) s := by
  cases i <;> rfl

/-- What a command can do: complete with its whole effect, or be rejected with none. -/
theorem exec_cases {i : Instr} {s t : State} (h : exec i s = .next t) :
    (firstFailure s (checksOf i s) = none ∧ t = (effectOf i s).complete) ∨
      (∃ e, firstFailure s (checksOf i s) = some e ∧ t = s.reject e) :=
  runCommand_cases (exec_eq_runCommand i s ▸ h)

theorem exec_of_passes {i : Instr} {s : State} (h : firstFailure s (checksOf i s) = none) :
    exec i s = .next (effectOf i s).complete := by
  rw [exec_eq_runCommand]
  exact runCommand_of_passes h

theorem exec_of_fails {i : Instr} {s : State} {e : ErrCode} (h : firstFailure s (checksOf i s) = some e) :
    exec i s = .next (s.reject e) := by
  rw [exec_eq_runCommand]
  exact runCommand_of_fails h

/-! ### The schedule updates, field by field -/

/-- What `advanceSetup` writes: the registers of the Setup schedule, and nothing else (R109). -/
theorem advanceSetup_eq (s : State) :
    advanceSetup s = { s with
      agRowa := (s.agRowa + s.agStep) &&& (s.agWindow - 1)
      agPrev := s.agRow
      agRow := s.agRow + 1
      agStep := (advanceSetup s).agStep
      agWindow := (advanceSetup s).agWindow
      agGap := (advanceSetup s).agGap } := by
  unfold advanceSetup
  dsimp only
  split
  · cases s.stepOrder <;> rfl
  · rfl

@[simp] theorem advanceSetup_sponge (s : State) : (advanceSetup s).sponge = s.sponge := by rw [advanceSetup_eq]

@[simp] theorem advanceSetup_events (s : State) : (advanceSetup s).events = s.events := by rw [advanceSetup_eq]

@[simp] theorem advanceSetup_mem (s : State) : (advanceSetup s).mem = s.mem := by rw [advanceSetup_eq]

@[simp] theorem advanceSetup_out (s : State) : (advanceSetup s).out = s.out := by rw [advanceSetup_eq]

/-! ### Matrix addresses and the column loop -/

/-- A row and a column in range give an address inside the matrix (R97). -/
theorem matrixAddr_lt {rows cols r c w : Nat} (hr : r < rows) (hc : c < cols) (hw : w < 12) :
    matrixAddr cols r c w < rows * cols * 12 := by
  have h : r * cols + c + 1 ≤ rows * cols := by nlinarith
  unfold matrixAddr
  omega

/-- Two words of the matrix have the same address only if they are the same word. -/
theorem matrixAddr_injective {cols r r' c c' w w' : Nat} (hc : c < cols) (hc' : c' < cols) (hw : w < 12) (hw' : w' < 12)
    (h : matrixAddr cols r c w = matrixAddr cols r' c' w') : r = r' ∧ c = c' ∧ w = w' := by
  unfold matrixAddr at h
  have h1 : r * cols + c = r' * cols + c' := by omega
  have hr : r = r' := by
    have e : ∀ x y, y < cols → (x * cols + y) / cols = x := fun x y hy => by
      rw [Nat.mul_comm, Nat.mul_add_div (by omega), Nat.div_eq_of_lt hy, Nat.add_zero]
    rw [← e r c hc, ← e r' c' hc', h1]
  subst hr
  omega

theorem matrixAddr_add (cols r c w : Nat) : matrixAddr cols r c 0 + w = matrixAddr cols r c w := by
  simp [matrixAddr]

/-- The induction over a column loop, packaged once. -/
theorem columnLoop_induct {step : Nat → Datapath → Datapath} {d : Datapath} (P : Nat → Datapath → Prop) (h0 : P 0 d)
    (n : Nat) (hs : ∀ i e, i < n → P i e → P (i + 1) (step i e)) : P n (columnLoop step n d) := by
  induction n with
  | zero => exact h0
  | succ n ih => exact hs n _ (by omega) (ih fun i e hi => hs i e (by omega))

/-! ### Steps -/

/-- What one step of the engine can do. -/
theorem engineStep_cases {s t : State} (h : engineStep s = .next t) :
    (s.inflight = none ∧ t = s) ∨
      (∃ w i, s.inflight = some w ∧ decode w = .ok i ∧ exec i s = .next t) ∨
      (∃ w e, s.inflight = some w ∧ decode w = .error e ∧ t = s.reject .opcode) := by
  unfold engineStep at h
  split at h
  · exact .inl ⟨by assumption, by injection h with h; exact h.symm⟩
  · rename_i w hw
    split at h
    · exact .inr (.inl ⟨w, _, hw, by assumption, h⟩)
    · exact .inr (.inr ⟨w, _, hw, by assumption, by injection h with h; exact h.symm⟩)

/-- No effect of a command touches the events to come. -/
theorem effectOf_events (i : Instr) (s : State) : (effectOf i s).events = s.events := by
  cases i <;>
    simp [effectOf, absorbFrom, squeezeOut, sqzrow0Body, duprow1Body, dupsetupBody, duprowBody, selectRow, loadSetup, loadWandering,
      advanceWandering]

/-- The engine always has a step. -/
theorem engineStep_answers (s : State) : ∃ t, engineStep s = .next t := by
  unfold engineStep
  split
  · exact ⟨_, rfl⟩
  · split
    · rename_i i _
      rw [exec_eq_runCommand, runCommand]
      split <;> exact ⟨_, rfl⟩
    · exact ⟨_, rfl⟩

/-- After its step the engine is idle, and the events to come are the same. -/
theorem engineStep_settles {s t : State} (h : engineStep s = .next t) : t.events = s.events ∧ t.inflight = none := by
  obtain ⟨hi, rfl⟩ | ⟨w, i, _, _, he⟩ | ⟨w, e, _, _, rfl⟩ := engineStep_cases h
  · exact ⟨rfl, hi⟩
  · obtain ⟨_, rfl⟩ | ⟨e, _, rfl⟩ := exec_cases he
    · exact ⟨effectOf_events i s, rfl⟩
    · exact ⟨rfl, rfl⟩
  · exact ⟨rfl, rfl⟩

/-- What one step of the block can do: the engine moves, the platform resets, or the host's access is performed. -/
theorem step_cases {s t : State} (h : step s = .next t) :
    (∃ es, (es = s.events ∧ (s.events = [] ∨
          ∃ a rest, s.events = .access a :: rest ∧ s.busy = true ∧ a.passesHold = false) ∨ s.events = .engineTurn :: es) ∧
        engineStep { s with events := es } = .next t) ∨
      (∃ es, s.events = .hardwareReset :: es ∧ t = State.hardReset { s with events := es }) ∨
      (∃ a es, s.events = .access a :: es ∧ (s.busy = false ∨ a.passesHold = true) ∧
        t = State.performAccess a { s with events := es }) := by
  unfold step blockStep at h
  split at h
  · rename_i he
    exact .inl ⟨s.events, .inl ⟨rfl, .inl he⟩, h⟩
  · rename_i es he
    exact .inl ⟨es, .inr he, h⟩
  · rename_i es he
    exact .inr (.inl ⟨es, he, by injection h with h; exact h.symm⟩)
  · rename_i a es he
    split at h
    · rename_i hb
      simp only [Bool.and_eq_true, Bool.not_eq_true'] at hb
      exact .inl ⟨s.events, .inl ⟨rfl, .inr ⟨a, es, he, hb.1, hb.2⟩⟩, h⟩
    · rename_i hb
      refine .inr (.inr ⟨a, es, he, ?_, by injection h with h; exact h.symm⟩)
      revert hb
      cases s.busy <;> cases a.passesHold <;> simp

end Sys2Proof.Machine
end

