-- ==== Sys2Proof/Laws/HostProgram.lean ====
section
/-! SUPPORT. Laws/HostProgram.lean: what a host read of an idle engine does, what reading the key back gives, and when a derivation
run has a result. -/

namespace Sys2Proof.Machine

/-- A read does not depend on the events still to come. -/
@[simp] theorem State.busRead_events (s : State) (es : List Event) (a : HAddr) :
    ({ s with events := es } : State).busRead a = s.busRead a := rfl

/-- An idle engine with no event to come stays as it is (R114). -/
theorem stepped_idle {s : State} (he : s.events = []) (h : s.inflight = none) : stepped s = s := by
  simp [stepped, step, blockStep, engineStep, he, h]

/-- The host's next access to an idle engine is performed at once (R64, R65). -/
theorem stepped_access {s : State} (h : s.inflight = none) (a : Access) :
    stepped { s with events := [.access a] } = State.performAccess a { s with events := [] } := by
  have hb : ({ s with events := [.access a] } : State).busy = false := by simp [State.busy, h]
  simp only [stepped, step, blockStep]
  rw [hb]
  rfl

/-- An access leaves the events to come. -/
theorem performAccess_events (a : Access) (s : State) : (s.performAccess a).events = s.events := by
  cases a with
  | read h => rfl
  | write h v =>
    simp only [State.performAccess, State.busWrite]
    cases s.region h with
    | csr r =>
      cases r <;> try rfl
      · simp only [State.writeRegion, State.writeCsr, State.writeCtrl]; split <;> rfl
      · simp only [State.writeRegion, State.writeCsr, State.writeStatus]; split <;> split <;> split <;> rfl
      · simp only [State.writeRegion, State.writeCsr, State.issue]; split <;> rfl
    | _ => rfl

/-- A host read of an idle engine returns the word there and changes nothing of the engine (R45, R59). -/
theorem transact_read {s : State} (h : s.inflight = none) (a : HAddr) :
    transact (.read a) s = { s with events := [], rdata := some (s.busRead a), draws := s.draws + 1 } := by
  have hs : stepped (State.performAccess (.read a) { s with events := [] }) = State.performAccess (.read a) { s with events := [] } :=
    stepped_idle rfl h
  rw [transact, stepped_access h, hs, hs]
  rfl

/-- A step with no event to come leaves the engine idle, and still no event (R118). -/
theorem stepped_settles {s : State} (he : s.events = []) : (stepped s).events = [] ∧ (stepped s).inflight = none := by
  obtain ⟨t, ht⟩ := engineStep_answers s
  have hs : stepped s = t := by simp [stepped, step, blockStep, he, ht]
  rw [hs, (engineStep_settles ht).1, (engineStep_settles ht).2]
  exact ⟨he, rfl⟩

/-- An access that a command in flight holds is made as if that command had ended before it (R64). -/
theorem stepped_held {s : State} (h : s.busy = true) {a : Access} (ha : a.passesHold = false) :
    (stepped { s with events := [.access a] }).events = [.access a] ∧
      (stepped { s with events := [.access a] }).inflight = none := by
  obtain ⟨t, ht⟩ := engineStep_answers { s with events := [.access a] }
  have hb : ({ s with events := [.access a] } : State).busy = true := h
  have hs : stepped { s with events := [.access a] } = t := by
    simp only [stepped, step, blockStep]
    rw [hb, ha, ht]
    rfl
  rw [hs]
  exact engineStep_settles ht

/-- The engine is idle after every access of the host's program, whatever it was doing before: the test of a host loop comes after
the loop's command has completed (R80), and `waitidle` is never needed (R81). -/
theorem transact_idle (a : Access) (s : State) : (transact a s).events = [] ∧ (transact a s).inflight = none := by
  apply stepped_settles
  by_cases hold : s.busy = true ∧ a.passesHold = false
  · obtain ⟨he, hi⟩ := stepped_held hold.1 hold.2
    generalize stepped { s with events := [.access a] } = t at he hi
    have ht : t = { t with events := [.access a] } := by rw [← he]
    rw [ht, stepped_access hi, performAccess_events]
  · refine (stepped_settles ?_).1
    have hb : (({ s with events := [.access a] } : State).busy && !a.passesHold) = false := by
      have : ({ s with events := [.access a] } : State).busy = s.busy := rfl
      revert hold
      rw [this]
      cases s.busy <;> cases a.passesHold <;> simp
    simp only [stepped, step, blockStep]
    rw [hb]
    exact performAccess_events a _

/-- What the host reads from a register of an idle engine (R80). -/
theorem readRegister_value {s : State} (h : s.inflight = none) (r : Csr) : (readRegister r s).1 = s.readCsr r := by
  simp only [readRegister, rdReg, transact_read h, Option.getD_some, State.busRead, State.region]
  rw [regionOf_csr (r := r) (by cases r <;> decide) (by cases r <;> decide)]
  rfl

/-- Byte `j` of a word of memory is the byte at `8a + j` (R52, R55). -/
theorem leByte_wordAt (free : Nat → Byte) (m : Memory) (a : Nat) {j : Nat} (hj : j < 8) :
    leByte (m.wordAt free a) j = m.byteAt free (8 * a + j) := by
  unfold leByte Memory.wordAt
  generalize m.byteAt free = f
  apply BitVec.eq_of_getLsbD_eq
  intro i hi
  rw [BitVec.getLsbD_extractLsb', decide_eq_true hi, Bool.true_and]
  interval_cases j <;> simp (disch := omega) only [BitVec.getLsbD_append, if_pos, if_neg] <;> exact congrArg _ (by omega)

/-- Reading output words back from an idle engine: each is read with a draw counter of its own, and nothing of the engine changes
(R52, R59). -/
theorem readOutWords_spec {s : State} (h : s.inflight = none) (hc : s.outCap ≤ 4096) (n : Nat) (hn : 8 * n ≤ s.outCap) :
    (readOutWords n s).1 = (List.range n).map (fun k => outRead (s.draws + k) s.out k) ∧
      (readOutWords n s).2 =
        { s with events := (readOutWords n s).2.events, rdata := (readOutWords n s).2.rdata, draws := s.draws + n } := by
  induction n with
  | zero => exact ⟨rfl, rfl⟩
  | succ n ih =>
    obtain ⟨h1, h2⟩ := ih (by omega)
    have hi : (readOutWords n s).2.inflight = none := by rw [h2]; exact h
    have hr : (readOutWords n s).2.busRead (BitVec.ofNat 32 (0x200 + n)) = outRead (s.draws + n) s.out n := by
      have hg : (readOutWords n s).2.region (BitVec.ofNat 32 (0x200 + n)) = .outWord n := by
        rw [h2]
        exact regionOf_outWord (by omega) (by simp; omega) (by simpa using by omega)
      rw [State.busRead, hg, h2]
      rfl
    simp only [readOutWords, rdOut, transact_read hi, hr]
    refine ⟨by simp [h1, List.range_succ], ?_⟩
    rw [h2]
    simp [Nat.add_assoc]

/-- The key read back from an idle engine, `OUT[0 .. len-1]`: `len` bytes, byte `k` the written byte `k` of `OUT` (R142, R146). -/
theorem readKey_length (len : Nat) (s : State) : (readKey len s).1.length = len := by
  simp [readKey]

theorem readKey_byte {s : State} {len k : Nat} {b : Byte} (h : s.inflight = none) (hc : s.outCap ≤ 4096) (h8 : s.outCap % 8 = 0)
    (hl : len ≤ s.outCap) (hk : k < len) (hb : s.out.byte? k = some b) : (readKey len s).1[k]? = some b := by
  have hw := (readOutWords_spec h hc ((len + 7) / 8) (by omega)).1
  have hq : k / 8 < (len + 7) / 8 := by omega
  have e : 8 * (k / 8) + k % 8 = k := by omega
  simp only [readKey, hw, List.getElem?_map, List.getElem?_range hk, Option.map_some, List.getD_eq_getElem?_getD,
    List.getElem?_range hq, Option.getD_some, outRead]
  rw [leByte_wordAt _ _ _ (Nat.mod_lt _ (by decide)), e]
  simp [Memory.byteAt, hb]

/-- A run has a result exactly when it ended with `BUSY`, `ERR` and `DROP` at 0, and then the result is the key it read (R146). -/
theorem result_eq_some_iff (e : DerivationEnd) (key : List Byte) :
    e.result = some key ↔
      e.status.getLsbD 0 = false ∧ e.status.getLsbD 2 = false ∧ e.status.getLsbD 4 = false ∧ e.key = key := by
  simp [DerivationEnd.result, and_assoc]

end Sys2Proof.Machine
end

