-- ==== Sys2Proof/Laws/PerInstr.lean ====
section
/-! SUPPORT. Laws/PerInstr.lean: facts about every command as an encoded word, one lemma per constructor. -/

namespace Sys2Proof.Laws

/-- The opcode of a command (R76). -/
def opcodeNumber : Instr → Byte
  | .nop => 0x00
  | .init => 0x01
  | .perm12 => 0x02
  | .perm1 => 0x03
  | .absorb8 _ => 0x04
  | .absorb12 _ => 0x05
  | .squeeze _ => 0x06
  | .sqzrow0 _ => 0x08
  | .duprow1 _ _ => 0x09
  | .dupsetup _ _ _ => 0x0A
  | .duprow _ _ _ => 0x0B
  | .selrow => 0x10
  | .agsinit => 0x11
  | .agsstep => 0x12
  | .agwinit _ => 0x13
  | .agwstep => 0x14

/-- The encoding of a command has its opcode in bits `[7:0]` (R71, R76). -/
def EncodedOpcode.Statement (i : Instr) : Prop := opcodeOf (encode i) = opcodeNumber i

theorem opcodeOf_append (x : BitVec 56) (opc : Byte) : opcodeOf (x ++ opc) = opc := by
  apply BitVec.eq_of_getLsbD_eq
  intro i hi
  rw [opcodeOf, BitVec.getLsbD_extractLsb', Nat.zero_add]
  refine (congrArg _ (BitVec.getLsbD_append (x := x) (y := opc))).trans ?_
  simp [hi]

theorem EncodedOpcode.nop : EncodedOpcode.Statement .nop := opcodeOf_append _ _
theorem EncodedOpcode.init : EncodedOpcode.Statement .init := opcodeOf_append _ _
theorem EncodedOpcode.perm12 : EncodedOpcode.Statement .perm12 := opcodeOf_append _ _
theorem EncodedOpcode.perm1 : EncodedOpcode.Statement .perm1 := opcodeOf_append _ _
theorem EncodedOpcode.absorb8 (addr : Nat) : EncodedOpcode.Statement (.absorb8 addr) := opcodeOf_append _ _
theorem EncodedOpcode.absorb12 (ra : Nat) : EncodedOpcode.Statement (.absorb12 ra) := opcodeOf_append _ _
theorem EncodedOpcode.squeeze (len : Nat) : EncodedOpcode.Statement (.squeeze len) := opcodeOf_append _ _
theorem EncodedOpcode.sqzrow0 (ra : Nat) : EncodedOpcode.Statement (.sqzrow0 ra) := opcodeOf_append _ _
theorem EncodedOpcode.duprow1 (ra rb : Nat) : EncodedOpcode.Statement (.duprow1 ra rb) := opcodeOf_append _ _
theorem EncodedOpcode.dupsetup (ra rb rc : Nat) : EncodedOpcode.Statement (.dupsetup ra rb rc) := opcodeOf_append _ _
theorem EncodedOpcode.duprow (ra rb rc : Nat) : EncodedOpcode.Statement (.duprow ra rb rc) := opcodeOf_append _ _
theorem EncodedOpcode.selrow : EncodedOpcode.Statement .selrow := opcodeOf_append _ _
theorem EncodedOpcode.agsinit : EncodedOpcode.Statement .agsinit := opcodeOf_append _ _
theorem EncodedOpcode.agsstep : EncodedOpcode.Statement .agsstep := opcodeOf_append _ _
theorem EncodedOpcode.agwinit (tau : Nat) : EncodedOpcode.Statement (.agwinit tau) := opcodeOf_append _ _
theorem EncodedOpcode.agwstep : EncodedOpcode.Statement .agwstep := opcodeOf_append _ _

end Sys2Proof.Laws
end

