-- ==== Sys2Proof/Laws/RowOps.lean ====
section
/-! SUPPORT. Laws/RowOps.lean: what one column of each row operation does (R102 to R106), and that the bodies keep the memory's
canonical form and stay inside the matrix. -/

namespace Sys2Proof.Machine

@[simp] theorem lane_fin (s : Sponge) (j : Fin 16) : lane s j.val = s[j] := by simp [lane]

theorem lane_lt (s : Sponge) {j : Nat} (h : j < 16) : lane s j = s[j] := by simp [lane, h]

theorem absorbLanes_get (n : Nat) (s : Sponge) (block : Nat → Word) (j : Fin 16) :
    (absorbLanes n s block)[j] = if j.val < n then s[j] ^^^ block j.val else s[j] := by
  simp [absorbLanes]

@[simp] theorem permuteReduced_eq (s : Sponge) : permuteReduced s = spongeRound s := rfl

theorem spongeRounds_eq (n : Nat) (s : Sponge) : spongeRounds n s = spongeRound^[n] s := by
  induction n with
  | zero => rfl
  | succ n ih => rw [spongeRounds, ih, Function.iterate_succ_apply']

theorem blockAt_matrixAddr (key : Nat) (m : Memory) (cols r c j : Nat) :
    blockAt key m (matrixAddr cols r c 0) j = memRead key m (matrixAddr cols r c j) := by
  simp [blockAt, matrixAddr_add]

/-- Where a block's words lie. -/
theorem matrixAddr_range (cols r c j : Nat) (h : j < 12) :
    matrixAddr cols r c 0 ≤ matrixAddr cols r c j ∧ matrixAddr cols r c j < matrixAddr cols r c 0 + 12 ∧
      matrixAddr cols r c j - matrixAddr cols r c 0 = j := by
  simp only [matrixAddr]
  omega

/-- An address outside a block, said by its words. -/
theorem outside_block {cols r c a : Nat} (h : ¬∃ w < 12, a = matrixAddr cols r c w) :
    a < matrixAddr cols r c 0 ∨ matrixAddr cols r c 0 + 12 ≤ a := by
  by_contra hh
  refine h ⟨a - matrixAddr cols r c 0, by omega, ?_⟩
  rw [← matrixAddr_add]
  omega

/-- A word of one block does not lie in another block. -/
theorem notInOtherBlock {cols r r' c c' j : Nat} (hc : c < cols) (hc' : c' < cols) (hj : j < 12) (h : ¬(r = r' ∧ c = c')) :
    ¬(matrixAddr cols r' c' 0 ≤ matrixAddr cols r c j ∧ matrixAddr cols r c j < matrixAddr cols r' c' 0 + 12) := by
  intro hh
  have e := matrixAddr_injective (r := r) (r' := r') (w := j) (w' := matrixAddr cols r c j - matrixAddr cols r' c' 0) hc hc' hj
    (by omega) (by rw [← matrixAddr_add cols r']; omega)
  exact h ⟨e.1, e.2.1⟩

/-- Iteration `i` of SQZROW0: the block at the mirrored column takes the state's words. -/
theorem sqzrow0Column_word (key : Nat) (cols ra i : Nat) (d : Datapath) {j : Nat} (hj : j < 12) :
    memRead key (sqzrow0Column cols ra i d).mem (matrixAddr cols ra (cols - 1 - i) j) = lane d.sponge j := by
  have hr := matrixAddr_range cols ra (cols - 1 - i) j hj
  rw [sqzrow0Column, memRead_storeWords, if_pos ⟨hr.1, hr.2.1⟩, hr.2.2]

theorem sqzrow0Column_outside (cols ra i : Nat) (d : Datapath) {a : Nat}
    (h : ¬∃ w < 12, a / 8 = matrixAddr cols ra (cols - 1 - i) w) :
    (sqzrow0Column cols ra i d).mem.byte? a = d.mem.byte? a := by
  rw [sqzrow0Column, byte?_storeWords_outside _ _ _ _ _ (outside_block h)]

/-- Iteration `i` of DUPROW1: the block at the mirrored column of the output row takes `I ^ S`. -/
theorem duprow1Column_word (key' key cols ra rb i : Nat) (d : Datapath) {j : Nat} (hj : j < 12) :
    memRead key' (duprow1Column key cols ra rb i d).mem (matrixAddr cols rb (cols - 1 - i) j) =
      memRead key d.mem (matrixAddr cols ra i j) ^^^ lane (duprow1Column key cols ra rb i d).sponge j := by
  have hr := matrixAddr_range cols rb (cols - 1 - i) j hj
  simp only [duprow1Column]
  rw [memRead_storeWords, if_pos ⟨hr.1, hr.2.1⟩, hr.2.2, blockAt_matrixAddr]

theorem duprow1Column_outside (key cols ra rb i : Nat) (d : Datapath) {a : Nat}
    (h : ¬∃ w < 12, a / 8 = matrixAddr cols rb (cols - 1 - i) w) :
    (duprow1Column key cols ra rb i d).mem.byte? a = d.mem.byte? a := by
  simp only [duprow1Column]
  rw [byte?_storeWords_outside _ _ _ _ _ (outside_block h)]

/-- Iteration `i` of DUPSETUP: the rand block, which is the block just stored where out and rand are the same block. -/
theorem dupsetupColumn_rand (key' key cols ra rb rc i : Nat) (d : Datapath) (hi : i < cols) {p : Nat} (hp : p < 12) :
    memRead key' (dupsetupColumn key cols ra rb rc i d).mem (matrixAddr cols rb i p) =
      (if rc = rb ∧ cols - 1 - i = i
        then memRead key d.mem (matrixAddr cols ra i p) ^^^ lane (dupsetupColumn key cols ra rb rc i d).sponge p
        else memRead key d.mem (matrixAddr cols rb i p)) ^^^
        lane (dupsetupColumn key cols ra rb rc i d).sponge ((p + 11) % 12) := by
  have hr := matrixAddr_range cols rb i p hp
  simp only [dupsetupColumn]
  rw [memRead_xorWords, if_pos ⟨hr.1, hr.2.1⟩, hr.2.2, memRead_storeWords, rotW]
  congr 1
  by_cases h : rc = rb ∧ cols - 1 - i = i
  · obtain ⟨rfl, h2⟩ := h
    rw [h2, if_pos ⟨hr.1, hr.2.1⟩, if_pos ⟨rfl, rfl⟩, hr.2.2, blockAt_matrixAddr]
  · rw [if_neg h, if_neg (notInOtherBlock hi (by omega) hp fun e => h ⟨e.1.symm, e.2.symm⟩)]

/-- Iteration `i` of DUPSETUP: the out block takes `P ^ S` where it is not the rand block. -/
theorem dupsetupColumn_out (key' key cols ra rb rc i : Nat) (d : Datapath) (hi : i < cols) (h : ¬(rc = rb ∧ cols - 1 - i = i))
    {j : Nat} (hj : j < 12) :
    memRead key' (dupsetupColumn key cols ra rb rc i d).mem (matrixAddr cols rc (cols - 1 - i) j) =
      memRead key d.mem (matrixAddr cols ra i j) ^^^ lane (dupsetupColumn key cols ra rb rc i d).sponge j := by
  have hr := matrixAddr_range cols rc (cols - 1 - i) j hj
  simp only [dupsetupColumn]
  rw [memRead_xorWords, if_neg (notInOtherBlock (by omega) hi hj h), memRead_storeWords, if_pos ⟨hr.1, hr.2.1⟩, hr.2.2,
    blockAt_matrixAddr]

theorem dupsetupColumn_outside (key cols ra rb rc i : Nat) (d : Datapath) {a : Nat}
    (h : ¬∃ w < 12, a / 8 = matrixAddr cols rc (cols - 1 - i) w) (h' : ¬∃ w < 12, a / 8 = matrixAddr cols rb i w) :
    (dupsetupColumn key cols ra rb rc i d).mem.byte? a = d.mem.byte? a := by
  simp only [dupsetupColumn]
  rw [byte?_xorWords_outside _ _ _ _ _ _ (outside_block h'), byte?_storeWords_outside _ _ _ _ _ (outside_block h)]

/-- Iteration `i` of DUPROW: the rand block, which takes both updates where out and rand are the same row. -/
theorem duprowColumn_rand (key' key cols ra rb rc i : Nat) (d : Datapath) (hi : i < cols) {p : Nat} (hp : p < 12) :
    memRead key' (duprowColumn key cols ra rb rc i d).mem (matrixAddr cols rb i p) =
      (if rc = rb
        then memRead key d.mem (matrixAddr cols rb i p) ^^^ lane (duprowColumn key cols ra rb rc i d).sponge p
        else memRead key d.mem (matrixAddr cols rb i p)) ^^^
        lane (duprowColumn key cols ra rb rc i d).sponge ((p + 11) % 12) := by
  have hr := matrixAddr_range cols rb i p hp
  simp only [duprowColumn]
  rw [memRead_xorWords, if_pos ⟨hr.1, hr.2.1⟩, hr.2.2, memRead_xorWords, rotW]
  congr 1
  by_cases h : rc = rb
  · subst h
    rw [if_pos ⟨hr.1, hr.2.1⟩, if_pos rfl, hr.2.2]
  · rw [if_neg h, if_neg (notInOtherBlock hi hi hp fun e => h e.1.symm)]

/-- Iteration `i` of DUPROW: the out block is XORed with the state where it is not the rand block. -/
theorem duprowColumn_out (key' key cols ra rb rc i : Nat) (d : Datapath) (hi : i < cols) (h : rc ≠ rb) {j : Nat} (hj : j < 12) :
    memRead key' (duprowColumn key cols ra rb rc i d).mem (matrixAddr cols rc i j) =
      memRead key d.mem (matrixAddr cols rc i j) ^^^ lane (duprowColumn key cols ra rb rc i d).sponge j := by
  have hr := matrixAddr_range cols rc i j hj
  simp only [duprowColumn]
  rw [memRead_xorWords, if_neg (notInOtherBlock hi hi hj fun e => h e.1), memRead_xorWords, if_pos ⟨hr.1, hr.2.1⟩, hr.2.2]

theorem duprowColumn_outside (key cols ra rb rc i : Nat) (d : Datapath) {a : Nat}
    (h : ¬∃ w < 12, a / 8 = matrixAddr cols rc i w) (h' : ¬∃ w < 12, a / 8 = matrixAddr cols rb i w) :
    (duprowColumn key cols ra rb rc i d).mem.byte? a = d.mem.byte? a := by
  simp only [duprowColumn]
  rw [byte?_xorWords_outside _ _ _ _ _ _ (outside_block h'), byte?_xorWords_outside _ _ _ _ _ _ (outside_block h)]

/-! ### The bodies keep the memory well formed and inside the matrix -/

/-- The memory of a data path is in canonical form and its addresses are below `8 * n`. -/
def Datapath.MemOk (n : Nat) (d : Datapath) : Prop := d.mem.wf ∧ d.mem.Inside (8 * n)

/-- A block of a row and a column in range ends inside the matrix. -/
theorem block_inside {rows cols r c n : Nat} (hr : r < rows) (hc : c < cols) (hn : rows * cols * 12 ≤ n) :
    matrixAddr cols r c 0 + 12 ≤ n := by
  have h := matrixAddr_lt hr hc (w := 11) (by omega)
  rw [← matrixAddr_add] at h
  omega

theorem storeWords_memOk {rows cols r c n : Nat} {m : Memory} {S : Sponge} (T : Sponge) (f : Nat → Word) (hr : r < rows)
    (hc : c < cols) (hn : rows * cols * 12 ≤ n) (h : Datapath.MemOk n ⟨S, m⟩) {k : Nat} (hk : k = 12) :
    Datapath.MemOk n ⟨T, storeWords m (matrixAddr cols r c 0) f k⟩ :=
  ⟨storeWords_wf _ f k h.1, storeWords_inside f k h.2 (hk ▸ block_inside hr hc hn)⟩

theorem xorWords_memOk {rows cols r c n : Nat} {m : Memory} {S : Sponge} (T : Sponge) (key : Nat) (f : Nat → Word)
    (hr : r < rows) (hc : c < cols) (hn : rows * cols * 12 ≤ n) (h : Datapath.MemOk n ⟨S, m⟩) {k : Nat} (hk : k = 12) :
    Datapath.MemOk n ⟨T, xorWords key m (matrixAddr cols r c 0) f k⟩ :=
  ⟨xorWords_wf key _ f k h.1, xorWords_inside key f k h.2 (hk ▸ block_inside hr hc hn)⟩

theorem sqzrow0Column_memOk {rows cols ra i n : Nat} {d : Datapath} (ha : ra < rows) (hi : i < cols)
    (hn : rows * cols * 12 ≤ n) (h : d.MemOk n) : (sqzrow0Column cols ra i d).MemOk n := by
  rw [sqzrow0Column]
  exact storeWords_memOk (S := d.sponge) _ _ ha (by omega) hn h rfl

theorem duprow1Column_memOk {rows cols key ra rb i n : Nat} {d : Datapath} (hb : rb < rows) (hi : i < cols)
    (hn : rows * cols * 12 ≤ n) (h : d.MemOk n) : (duprow1Column key cols ra rb i d).MemOk n := by
  simp only [duprow1Column]
  exact storeWords_memOk (S := d.sponge) _ _ hb (by omega) hn h rfl

theorem dupsetupColumn_memOk {rows cols key ra rb rc i n : Nat} {d : Datapath} (hb : rb < rows) (hc : rc < rows) (hi : i < cols)
    (hn : rows * cols * 12 ≤ n) (h : d.MemOk n) : (dupsetupColumn key cols ra rb rc i d).MemOk n := by
  simp only [dupsetupColumn]
  exact xorWords_memOk (S := d.sponge) _ _ _ hb hi hn (storeWords_memOk (S := d.sponge) _ _ hc (by omega) hn h rfl) rfl

theorem duprowColumn_memOk {rows cols key ra rb rc i n : Nat} {d : Datapath} (hb : rb < rows) (hc : rc < rows) (hi : i < cols)
    (hn : rows * cols * 12 ≤ n) (h : d.MemOk n) : (duprowColumn key cols ra rb rc i d).MemOk n := by
  simp only [duprowColumn]
  exact xorWords_memOk (S := d.sponge) _ _ _ hb hi hn (xorWords_memOk (S := d.sponge) _ _ _ hc hi hn h rfl) rfl

end Sys2Proof.Machine
end

