-- ==== Sys2Proof/Tests/Slice0.lean ====
section
/-! SUPPORT. Tests/Slice0.lean: the model's own tests, and a witness for the hypotheses of every statement that has some. Words
and results are the spec's: 30_encoding.md (formats R72, opcode map R76), the worked examples of the command rules, and
95_test_vectors.md. -/

namespace Sys2Proof.Tests

open Sys2Proof.Machine Sys2Proof.Claims

set_option Elab.async false

/-! ### WellFormed: an ill-formed term for each check (R73, R79) -/

theorem test_fitsRow : fitsRow 65535 = true ∧ fitsRow 65536 = false := by decide
theorem test_fitsLong : fitsLong 4294967295 = true ∧ fitsLong 4294967296 = false := by decide
theorem test_illFormed_absorb8 : (Instr.absorb8 4294967296).wellFormed = false := by decide
theorem test_illFormed_absorb12 : (Instr.absorb12 65536).wellFormed = false := by decide
theorem test_illFormed_squeeze : (Instr.squeeze 4294967296).wellFormed = false := by decide
theorem test_illFormed_sqzrow0 : (Instr.sqzrow0 65536).wellFormed = false := by decide
theorem test_illFormed_duprow1_ra : (Instr.duprow1 65536 0).wellFormed = false := by decide
theorem test_illFormed_duprow1_rb : (Instr.duprow1 0 65536).wellFormed = false := by decide
theorem test_illFormed_dupsetup_ra : (Instr.dupsetup 65536 0 0).wellFormed = false := by decide
theorem test_illFormed_dupsetup_rb : (Instr.dupsetup 0 65536 0).wellFormed = false := by decide
theorem test_illFormed_dupsetup_rc : (Instr.dupsetup 0 0 65536).wellFormed = false := by decide
theorem test_illFormed_duprow_ra : (Instr.duprow 65536 0 0).wellFormed = false := by decide
theorem test_illFormed_duprow_rb : (Instr.duprow 0 65536 0).wellFormed = false := by decide
theorem test_illFormed_duprow_rc : (Instr.duprow 0 0 65536).wellFormed = false := by decide
theorem test_illFormed_agwinit : (Instr.agwinit 4294967296).wellFormed = false := by decide
theorem test_assemble_refuses : assemble (.dupsetup 1 0 65536) = none := by decide

/-- The worked example of R79. -/
theorem test_assemble_example : assemble (.dupsetup 1 0 2) = some 0x000002000000010A := by decide

/-! ### Decoding, one written-out word per command (R72, R76, R79, R90 to R112, 95_test_vectors.md) -/

theorem test_decode_nop : decode 0x0000000000000000 = .ok .nop := by decide
theorem test_decode_init : decode 0x0000000000000001 = .ok .init := by decide
theorem test_decode_perm12 : decode 0x0000000000000002 = .ok .perm12 := by decide
theorem test_decode_perm1 : decode 0x0000000000000003 = .ok .perm1 := by decide
theorem test_decode_absorb8 : decode 0x0000000000001C04 = .ok (.absorb8 28) := by decide
theorem test_decode_absorb8_widest : decode 0x000000FFFFFFFF04 = .ok (.absorb8 0xFFFFFFFF) := by decide
theorem test_decode_absorb12 : decode 0x0000000000000205 = .ok (.absorb12 2) := by decide
theorem test_decode_squeeze : decode 0x0000000000006406 = .ok (.squeeze 100) := by decide
theorem test_decode_sqzrow0 : decode 0x0000000000FFFF08 = .ok (.sqzrow0 65535) := by decide
theorem test_decode_duprow1 : decode 0x0000000001000009 = .ok (.duprow1 0 1) := by decide
theorem test_decode_dupsetup : decode 0x000002000000010A = .ok (.dupsetup 1 0 2) := by decide
theorem test_decode_duprow : decode 0x000000000100020B = .ok (.duprow 2 1 0) := by decide
theorem test_decode_duprow_bits :
    decode 0b00000000_0000000000000111_0000000000000101_0000000000000011_00001011 = .ok (.duprow 3 5 7) := by decide
theorem test_decode_selrow : decode 0x0000000000000010 = .ok .selrow := by decide
theorem test_decode_agsinit : decode 0x0000000000000011 = .ok .agsinit := by decide
theorem test_decode_agsstep : decode 0x0000000000000012 = .ok .agsstep := by decide
theorem test_decode_agwinit : decode 0x0000000000000113 = .ok (.agwinit 1) := by decide
theorem test_decode_agwstep : decode 0x0000000000000014 = .ok .agwstep := by decide

/-- R120's three examples, and 95_test_vectors.md section 4.2's DUPROW1 word with bit 40 set. -/
theorem test_decode_illegal :
    decode 0x0000000000000007 = .error (.reservedOpcode 7) ∧ decode 0x0000000000000100 = .error (.reservedBits 0) ∧
    decode 0x010000000000000A = .error (.reservedBits 0x0A) ∧ decode 0x0000010001000009 = .error (.reservedBits 9) := by decide

theorem test_decodeTableWord : decodeTableWord 64 0x0205 = some (.absorb12 2) ∧ decodeTableWord 64 0x07 = none := by decide

/-! ### Small states -/

/-- The instance of 95_test_vectors.md after reset: `MEM_WORDS = 4096`, `OUT_CAP = 256`, `REF`. -/
def engine : State := { State.reset with memWords := 4096, outCap := 256, stepOrder := .ref }

/-- `MEM[a] = a + 1` for `a` below `n`, `n < 255`, as bytes. -/
def counting (n : Nat) : Memory :=
  (List.range (8 * n)).map fun k => (k, if k % 8 = 0 then BitVec.ofNat 8 (k / 8 + 1) else 0)

/-- After `CFG_ROWS = rows`, `CFG_COLS = cols` and `init`. -/
def initialised (rows cols : Word) : State := { engine with cfgRows := rows, cfgCols := cols, sponge := initSponge, sv := true }

/-- The start of 95_test_vectors.md section 3.1. -/
def absorbing : State := { initialised 3 1 with mem := counting 36 }

/-- The command is in flight, and the engine takes its one step. -/
def ran (i : Instr) (s : State) : State := stepped (s.accept (encode i))

/-- A matrix memory from its first words (R55). -/
def wordsMemory (ws : List Word) : Memory := (List.range (8 * ws.length)).map fun k => (k, leByte (ws.getD (k / 8) 0) (k % 8))

/-- `PERM1` of the INIT state (95_test_vectors.md section 2.3), words 0 to 11. -/
def perm1Block : List Word :=
  [0xD11C2568289A5CE3, 0xADF896B5D4E84D75, 0x99542821CBC51A74, 0xFA07BF703990162E, 0xB6E9FA05E2C01F66, 0xFF193426D19486C9,
    0x693A7BDE29CD1E72, 0xA5B6739E3959379B, 0x3F4D0D70D56D732C, 0x30D7FB7104E85893, 0xC21863FC34430CC9, 0xBAE777F3AFA46511]

/-- The INIT state, words 0 to 11 (R91). -/
def initBlock : List Word :=
  [0, 0, 0, 0, 0, 0, 0, 0, 0x6A09E667F3BCC908, 0xBB67AE8584CAA73B, 0x3C6EF372FE94F82B, 0xA54FF53A5F1D36F1]

/-- After `init; sqzrow0 0` with two columns (95_test_vectors.md section 4.1): row 0 and the state, as the spec lists them. -/
def row0Filled : State :=
  { initialised 3 2 with
    mem := wordsMemory (perm1Block ++ initBlock)
    sponge := #v[0x2411EEC9B5FEDD11, 0x76BE75745AB45010, 0x146168406CE72045, 0x865A0D84595570C3, 0xDA46C1F8A0316A6D,
      0xC5AC70FAB32AD557, 0x8CF4F1C364BB9EF3, 0x6582725315D3E08A, 0x053B90DFB1D78EBA, 0xEE3D7AA76ECBC3C8, 0xA046F9B2F14C3DD9,
      0x3811C0674F56F0BC, 0x7E7B916B8C42407C, 0x2439CB35208E7EA0, 0x1C1ED60978A41A5E, 0xC4B1DA7D7C5413E8] }

/-! ### One step of each command -/

theorem test_step_nop : ran .nop engine = { engine with done := true, draws := 1 } := by decide +kernel

theorem test_step_init :
    (ran .init engine).sv = true ∧ (ran .init engine).sponge[7] = 0 ∧ (ran .init engine).sponge[8] = 0x6A09E667F3BCC908 ∧
    (ran .init engine).sponge[15] = 0x5BE0CD19137E2179 ∧ (ran .init engine).statusWord = 0x6A := by decide +kernel

theorem test_mix :
    ∀ s : Sponge, s = #v[1, 0, 0, 0, 2, 0, 0, 0, 3, 0, 0, 0, 4, 0, 0, 0] →
      (mix s 0 4 8 12)[0] = 0x0000010000000703 ∧ (mix s 0 4 8 12)[4] = 0x0E06020E020E0E06 ∧
      (mix s 0 4 8 12)[8] = 0x0703000701070003 ∧ (mix s 0 4 8 12)[12] = 0x0703000001070000 := by
  rintro s rfl
  decide +kernel

theorem test_step_perm1 :
    (ran .perm1 (initialised 0 0)).sponge[0] = 0xD11C2568289A5CE3 ∧
    (ran .perm1 (initialised 0 0)).sponge[15] = 0x9AE136CCBDA8C5BE := by decide +kernel

theorem test_step_perm12 : (ran .perm12 (initialised 0 0)).sponge[0] = 0xE69F10665547562D := by decide +kernel

theorem test_step_perm12_noState : (ran .perm12 engine).statusWord = 0x364 ∧ (ran .perm12 engine).errInfo = 2 := by decide +kernel

theorem test_step_absorb8 : (ran (.absorb8 28) absorbing).sponge[0] = 0x3E4C4703741561F7 := by decide +kernel

theorem test_step_absorb8_outside :
    (ran (.absorb8 29) absorbing).statusWord = 0x54C ∧ (ran (.absorb8 29) absorbing).errInfo = 0x1D04 ∧
    (ran (.absorb8 29) absorbing).sponge = initSponge := by decide +kernel

theorem test_step_absorb12 : (ran (.absorb12 2) absorbing).sponge[0] = 0x621BCC44952688C5 := by decide +kernel

theorem test_step_absorb12_row : (ran (.absorb12 3) absorbing).errCode = 4 := by decide +kernel

theorem test_step_squeeze :
    (ran (.squeeze 100) (initialised 0 0)).outLen = 100 ∧ (ran (.squeeze 100) (initialised 0 0)).out.byte? 64 = some 0x08 ∧
    (ran (.squeeze 100) (initialised 0 0)).out.byte? 96 = some 0x2D ∧
    (ran (.squeeze 100) (initialised 0 0)).out.byte? 99 = some 0x55 ∧
    (ran (.squeeze 100) (initialised 0 0)).out.byte? 100 = none := by decide +kernel

theorem test_step_squeeze_tooLong : (ran (.squeeze 257) (initialised 0 0)).statusWord = 0x66C := by decide +kernel

/-- The first block written is the last column's (R99), and `F1` follows every column. -/
theorem test_step_sqzrow0 :
    memRead 0 (ran (.sqzrow0 0) (initialised 3 2)).mem 0 = 0xD11C2568289A5CE3 ∧
    memRead 0 (ran (.sqzrow0 0) (initialised 3 2)).mem 20 = 0x6A09E667F3BCC908 ∧
    (ran (.sqzrow0 0) (initialised 3 2)).sponge[0] = 0x2411EEC9B5FEDD11 := by decide +kernel

theorem test_step_duprow1_mirrored :
    memRead 0 (ran (.duprow1 0 1) row0Filled).mem 36 = 0x0BDB28F82A3F4773 ∧
    memRead 0 (ran (.duprow1 0 1) row0Filled).mem 24 = 0xC08EDB97A6A67751 := by decide +kernel

theorem test_step_duprow1_state : (ran (.duprow1 0 1) row0Filled).sponge[15] = 0x822A6EC18976C73B := by decide +kernel

/-- 95_test_vectors.md section 4.2: the sum of the two rows wraps to zero, and the rand row takes the rotated state. -/
theorem test_step_dupsetup_wraps :
    ∀ t, t = ran (.dupsetup 0 1 2)
        { initialised 3 1 with mem := wordsMemory (List.replicate 12 0xFFFFFFFFFFFFFFFF ++ List.replicate 12 1) } →
      t.sponge[0] = 0xD11C2568289A5CE3 ∧ memRead 0 t.mem 24 = 0x2EE3DA97D765A31C ∧ memRead 0 t.mem 12 = 0xBAE777F3AFA46510 ∧
      memRead 0 t.mem 13 = 0xD11C2568289A5CE2 := by
  rintro t rfl
  decide +kernel

/-- 95_test_vectors.md section 4.3, `COLS = 1`, rows all the same. -/
theorem test_step_dupsetup_aliased :
    memRead 0 (ran (.dupsetup 0 0 0) (ran (.sqzrow0 0) (initialised 3 1))).mem 0 = 0xDF88032C320298C4 ∧
    (ran (.dupsetup 0 0 0) (ran (.sqzrow0 0) (initialised 3 1))).sponge[0] = 0x513B228C66385482 := by decide +kernel

/-- Worked out from 95_test_vectors.md sections 2.3 and 4.2: the sum wraps to zero, so `S` is PERM1 of the INIT state; the out row,
`5` in each word, is XORed with it in place (R105). -/
theorem test_step_duprow_distinct :
    ∀ t, t = ran (.duprow 0 1 2)
        { initialised 3 1 with
          mem := wordsMemory (List.replicate 12 0xFFFFFFFFFFFFFFFF ++ List.replicate 12 1 ++ List.replicate 12 5) } →
      t.sponge[0] = 0xD11C2568289A5CE3 ∧ memRead 0 t.mem 24 = 0xD11C2568289A5CE6 ∧ memRead 0 t.mem 12 = 0xBAE777F3AFA46510 ∧
      memRead 0 t.mem 13 = 0xD11C2568289A5CE2 := by
  rintro t rfl
  decide +kernel

theorem test_step_duprow_aliased :
    memRead 0 (ran (.duprow 0 0 0) (ran (.sqzrow0 0) (initialised 3 1))).mem 0 = 0xDF88032C320298C4 ∧
    (ran (.duprow 0 0 0) (ran (.sqzrow0 0) (initialised 3 1))).sponge[0] = 0x513B228C66385482 := by decide +kernel

/-- A sponge state with a chosen first word. -/
def first (w : Word) : Sponge := initSponge.set 0 w

theorem test_step_selrow :
    (ran .selrow { initialised 8 1 with sponge := first 0xAA2722CFA7554EAE }).agRowa = 6 := by decide +kernel

/-- R107: the remainder is of the unsigned value. -/
theorem test_step_selrow_unsigned :
    (ran .selrow { initialised 3 1 with sponge := first 0xFFFFFFFFFFFFFFFF, agRowa := 9 }).agRowa = 0 := by decide +kernel

theorem test_step_agsinit :
    ((ran .agsinit engine).agRow, (ran .agsinit engine).agPrev, (ran .agsinit engine).agRowa, (ran .agsinit engine).agStep,
      (ran .agsinit engine).agWindow, (ran .agsinit engine).agGap) = (2, 1, 0, 1, 2, 1) := by decide +kernel

/-- R110's table before step 2, for `ROWS = 8`. -/
def setupTwo (o : StepOrder) : State :=
  { initialised 8 1 with agRow := 3, agPrev := 2, agRowa := 1, agStep := 1, agWindow := 2, agGap := 1, stepOrder := o }

theorem test_step_agsstep_ref :
    ((ran .agsstep (setupTwo .ref)).agRow, (ran .agsstep (setupTwo .ref)).agPrev, (ran .agsstep (setupTwo .ref)).agRowa,
      (ran .agsstep (setupTwo .ref)).agStep, (ran .agsstep (setupTwo .ref)).agWindow, (ran .agsstep (setupTwo .ref)).agGap) =
      (4, 3, 0, 3, 4, 0xFFFFFFFFFFFFFFFF) := by decide +kernel

theorem test_step_agsstep_doc :
    ((ran .agsstep (setupTwo .doc)).agRowa, (ran .agsstep (setupTwo .doc)).agStep, (ran .agsstep (setupTwo .doc)).agWindow) =
      (0, 5, 4) := by decide +kernel

theorem test_step_agwinit_odd :
    (ran (.agwinit 1) { initialised 8 1 with sv := false, agRow := 5 }).agBigstep = 3 ∧
    (ran (.agwinit 1) { initialised 8 1 with sv := false, agRow := 5 }).agRow = 0 := by decide +kernel

theorem test_step_agwinit_even : (ran (.agwinit 0) (initialised 8 1)).agBigstep = 0xFFFFFFFFFFFFFFFF := by decide +kernel

theorem test_step_agwstep_wraps :
    (ran .agwstep { initialised 3 1 with agBigstep := 0xFFFFFFFFFFFFFFFF, agPrev := 1 }).agRow = 2 ∧
    (ran .agwstep { initialised 3 1 with agBigstep := 0xFFFFFFFFFFFFFFFF, agPrev := 1 }).agPrev = 0 := by decide +kernel

/-- The rand row is taken from `S[0]` before the duplex: here row 1, so row 1 is written and row 0 is not re-selected. -/
theorem test_step_agwstep_selects :
    (ran .agwstep { initialised 3 1 with sponge := first 4, mem := counting 36, agBigstep := 1, agRow := 2, agPrev := 0 }).agRowa = 1 ∧
    (ran .agwstep { initialised 3 1 with sponge := first 4, mem := counting 36, agBigstep := 1, agRow := 2, agPrev := 0 }).agRow = 0 := by
  decide +kernel

/-! ### The host bus, the resets and the fetch word -/

/-- R46, R47, R52, R54: after `squeeze 200` on the INIT state, the output window and a reserved address. -/
theorem test_bus_output :
    ((ran (.squeeze 95) (initialised 0 0)).busRead 0x208) = 0x6A09E667F3BCC908 ∧
    ((ran (.squeeze 95) (initialised 0 0)).busRead 0x220) = 0 := by decide +kernel

theorem test_bus_dropped :
    ((engine.accept 7).reject .opcode |>.issue 1).statusWord = 0x174 ∧
    (((engine.accept 7).reject .opcode |>.issue 1).writeStatus 0x14).statusWord = 0x60 := by decide +kernel

theorem test_irq : (ran .init { engine with ieDone := true }).statusWord = 0xEA := by decide +kernel

theorem test_withFetchWord_accepted : step (State.reset.withFetchWord 64 0x1) = exec .init (State.reset.accept 1) := rfl

theorem test_withFetchWord_illegal : (stepped (State.reset.withFetchWord 64 0x7)).errInfo = 7 := by decide +kernel

/-! ### The host's program (R79, R81, R142, R146) -/

/-- A row of 65536 read from `AG_ROWA` is no operand of `absorb12`: nothing is issued (R79). -/
theorem test_wrapUp_noSuchRow : wrapUp 0 { initialised 3 1 with agRowa := 65536 } = none := by decide +kernel

/-- `wander` with a command still in flight: the pass of an even `tau` over three rows visits 2, 1 and 0, as from an idle engine, and
its last step is of row 1 (R80, R81, R112). -/
theorem test_wander_busy : (wander 2 { absorbing with inflight := some 0 }).map (·.agPrev) = some 1 := by decide +kernel

/-- Three bytes of the first output word, least significant first, and none beyond them (R52, R142). -/
theorem test_readKey : (readKey 3 { engine with out := wordsMemory [0x0807060504030201] }).1 = [1, 2, 3] := by decide +kernel

/-- A failed precondition ends the run before it begins (R142), and a dropped command leaves no result (R146). -/
theorem test_noKey : derivedKey 257 1 [] [] 3 1 engine = none ∧
    DerivationEnd.result { key := [1], status := 0x10, state := engine } = none ∧
    DerivationEnd.result { key := [1], status := 0x6A, state := engine } = some [1] := by decide +kernel

/-! ### Witnesses: the hypotheses of each statement are met together -/

theorem witness_DecodeOfEncodeIsIdentity :
    (Instr.dupsetup 65535 65535 65535).wellFormed = true ∧ (Instr.absorb8 0xFFFFFFFF).wellFormed = true := by decide

theorem witness_EncodeOfDecodeIsIdentity : decode 0x00FFFFFFFFFFFF0B = .ok (.duprow 65535 65535 65535) := by decide

theorem witness_DecoderFollowsMaskTable :
    (0xFFFFFF00000000FF, 0x04) ∈ commandRows ∧
    (0x000000FFFFFFFF04 : Word) &&& 0xFFFFFF00000000FF = 0x04 ∧ (∀ r ∈ commandRows, (0x15 : Word) &&& r.1 ≠ r.2) := by
  simp [commandRows, rowOf]

/-- A state with the command `perm12` in flight and given events. -/
def busyWith (es : List Event) : State := { engine with inflight := some 2, events := es }

theorem witness_StepRunsDecodedCommand :
    (busyWith []).inflight = some 2 ∧ decode 2 = .ok .perm12 ∧ (busyWith []).events = [] ∧
    (busyWith [.engineTurn]).events = .engineTurn :: [] ∧
    (busyWith [.access (.read 3)]).events = .access (.read 3) :: [] ∧ Access.passesHold (.read 3) = false := by decide +kernel

theorem witness_IllegalWordIsRejected :
    (engine.accept 0x15).inflight = some 0x15 ∧ (∀ r ∈ commandRows, (0x15 : Word) &&& r.1 ≠ r.2) :=
  ⟨rfl, by simp [commandRows, rowOf]⟩

/-- A column and a diagonal quadruple, with two words left alone. -/
theorem witness_MixingStepDoesItsEightLines :
    ((0 : Fin 16) ≠ 4 ∧ (0 : Fin 16) ≠ 8 ∧ (0 : Fin 16) ≠ 12 ∧ (4 : Fin 16) ≠ 8 ∧ (4 : Fin 16) ≠ 12 ∧ (8 : Fin 16) ≠ 12) ∧
    ((3 : Fin 16) ≠ 4 ∧ (3 : Fin 16) ≠ 9 ∧ (3 : Fin 16) ≠ 14 ∧ (4 : Fin 16) ≠ 9 ∧ (4 : Fin 16) ≠ 14 ∧ (9 : Fin 16) ≠ 14) ∧
    ((15 : Fin 16) ≠ 0 ∧ (15 : Fin 16) ≠ 4 ∧ (15 : Fin 16) ≠ 8 ∧ (15 : Fin 16) ≠ 12) ∧
    (∃ S : Sponge, S[0] = 1 ∧ S[4] = 2 ∧ S[8] = 3 ∧ S[12] = 4) :=
  ⟨by decide, by decide, by decide, #v[1, 0, 0, 0, 2, 0, 0, 0, 3, 0, 0, 0, 4, 0, 0, 0], rfl, rfl, rfl, rfl⟩

theorem witness_InterruptLine : (ran .init engine).err = false ∧ engine.err = false := by decide +kernel

theorem witness_PermutationLaws :
    (∀ j : Fin 16, (Vector.replicate 16 (0 : Word))[j] = 0) ∧ (1 ≤ 1 ∧ 1 ≤ 63) ∧ (1 ≤ 63 ∧ 63 ≤ 63) := by decide +kernel

/-- PERM12 and PERM1: the state each clause starts from. -/
theorem witness_PermutesTheState :
    (initialised 0 0).sv = true ∧ (engine.accept 2).inflight = some 2 ∧ (engine.accept 2).sv = false := by decide +kernel

theorem witness_Absorb8Result :
    CfgOk (initialised 3 1) ∧ (initialised 3 1).sv = true ∧
    28 + 8 ≤ (initialised 3 1).cfgRows.toNat * (initialised 3 1).cfgCols.toNat * 12 := by decide +kernel

/-- ABSORB12, SQZROW0, and the row commands of more rows at the highest row of the matrix. -/
theorem witness_RowInRange :
    CfgOk (initialised 3 1) ∧ (initialised 3 1).sv = true ∧ 2 < (initialised 3 1).cfgRows.toNat ∧
    0 < (initialised 3 1).cfgRows.toNat := by decide +kernel

/-- SQZROW0, DUPROW1, DUPSETUP and DUPROW with two columns: the last iteration, its last word, a byte of its block and a byte of
another block. -/
theorem witness_ColumnInRange :
    CfgOk (initialised 3 2) ∧ 1 < (initialised 3 2).cfgCols.toNat ∧ (11 : Nat) < 12 ∧ InBlock (initialised 3 2) 2 1 568 ∧
    (∀ w < 12, 0 / 8 ≠ matrixAddr (initialised 3 2).cfgCols.toNat 2 1 w) ∧ ¬(2 = 2 ∧ 2 - 1 - 1 = 1) := by
  refine ⟨by decide +kernel, by decide +kernel, by decide, ⟨11, by decide, by decide +kernel⟩, by decide +kernel, by decide⟩

/-- DUPSETUP's aliased clause: three columns have a middle one, its own mirror. -/
theorem witness_DupsetupResult_alias :
    CfgOk (initialised 3 3) ∧ 1 < (initialised 3 3).cfgCols.toNat ∧ (2 = 2 ∧ (initialised 3 3).cfgCols.toNat - 1 - 1 = 1) := by
  decide +kernel

theorem witness_SqueezeResult :
    (initialised 0 0).sv = true ∧ 256 ≤ (initialised 0 0).outCap ∧ 0 ≤ (initialised 0 0).outCap ∧
    (255 < 256 ∧ 256 ≤ 256) := by decide +kernel

theorem witness_SqueezePrefixesAgree :
    ∃ t t', exec (.squeeze 1) (initialised 0 0) = .next t ∧ exec (.squeeze 2) (initialised 0 0) = .next t' ∧
      (0 < 1 ∧ 0 < 2) ∧ 1 ≤ (initialised 0 0).outCap ∧ 2 ≤ (initialised 0 0).outCap ∧ (initialised 0 0).sv = true :=
  ⟨_, _, rfl, rfl, by decide, by decide +kernel, by decide +kernel, rfl⟩

/-- Each clause of the aliasing statement: out and rand the same row, prev and rand the same, prev and out the same. -/
theorem witness_DuprowAliasedRows :
    CfgOk (initialised 3 2) ∧ (initialised 3 2).sv = true ∧ 2 < (initialised 3 2).cfgRows.toNat ∧
    (∃ t, exec (.duprow 0 2 2) (initialised 3 2) = .next t) ∧ (∃ t, exec (.duprow 2 2 0) (initialised 3 2) = .next t) ∧
    (∃ t, exec (.duprow 2 1 2) (initialised 3 2) = .next t) ∧ (1 : Nat) ≠ 2 ∧ 1 < (initialised 3 2).cfgCols.toNat :=
  ⟨by decide +kernel, rfl, by decide +kernel, ⟨_, rfl⟩, ⟨_, rfl⟩, ⟨_, rfl⟩, by decide, by decide +kernel⟩

theorem witness_SelrowResult : CfgOk (initialised 3 1) ∧ (initialised 3 1).sv = true := by decide +kernel

/-- AGSSTEP at the last row of the matrix, in the clause where the revisited row wraps and in the one where it does not, for each
order. -/
theorem witness_AgsstepResult :
    CfgOk (setupTwo .ref) ∧ (setupTwo .ref).sv = true ∧ (setupTwo .ref).agPrev.toNat < (setupTwo .ref).cfgRows.toNat ∧
    (setupTwo .ref).agRowa.toNat < (setupTwo .ref).cfgRows.toNat ∧ (7 : Word).toNat < (setupTwo .ref).cfgRows.toNat ∧
    ((setupTwo .ref).agRowa + (setupTwo .ref).agStep) &&& ((setupTwo .ref).agWindow - 1) = 0 ∧
    ((0 : Word) + (setupTwo .ref).agStep) &&& ((setupTwo .ref).agWindow - 1) ≠ 0 ∧ (setupTwo .doc).stepOrder ≠ .ref := by
  decide +kernel

theorem witness_SetupScheduleLaws :
    CfgOk (initialised 3 1) ∧ (initialised 3 1).sv = true ∧ (initialised 3 1).err = false ∧
    0 < (initialised 3 1).cfgRows.toNat - 2 ∧ 1 ≤ (initialised 3 1).cfgRows.toNat - 2 := by decide +kernel

theorem witness_AgwinitResult : CfgOk (initialised 3 1) ∧ 1 % 2 = 1 ∧ 0 % 2 = 0 ∧ 0xFFFFFFFF % 2 = 1 := by decide +kernel

theorem witness_AgwstepResult :
    CfgOk (initialised 3 1) ∧ (initialised 3 1).sv = true ∧ (initialised 3 1).agPrev.toNat < (initialised 3 1).cfgRows.toNat ∧
    (2 : Word).toNat < (initialised 3 1).cfgRows.toNat ∧
    ({ initialised 3 1 with agRow := 2 } : State).agRow.toNat < (initialised 3 1).cfgRows.toNat := by decide +kernel

theorem witness_WanderingPassLength :
    ∃ b g : Nat, CfgOk { initialised 6 1 with agBigstep := 2 } ∧ ({ initialised 6 1 with agBigstep := 2 } : State).sv = true ∧
      ({ initialised 6 1 with agBigstep := 2 } : State).err = false ∧ ({ initialised 6 1 with agBigstep := 2 } : State).agRow = 0 ∧
      ({ initialised 6 1 with agBigstep := 2 } : State).agPrev.toNat < 6 ∧ (b : Int) = (2 : Word).toInt % (6 : Int) ∧
      g = Nat.gcd b 6 ∧ 6 / g = 3 :=
  ⟨2, 2, by decide +kernel⟩

/-- A rejected command: `SQZROW0` with `ROWS = 2`, in flight. -/
theorem witness_ConfigurationValidity :
    usesConfiguration (.sqzrow0 0) = true ∧ ((initialised 2 1).accept 8).cfgOk = false ∧
    ((initialised 2 1).accept 8).inflight = some 8 := by decide +kernel

/-- One command per error code 2 to 6 of R119, at the boundary of its check. -/
theorem witness_failingCode :
    failingCode (initialised 2 1) (.sqzrow0 0) = some 2 ∧
    failingCode engine .perm12 = some 3 ∧ failingCode (initialised 3 1) (.sqzrow0 3) = some 4 ∧
    failingCode (initialised 3 1) (.absorb8 29) = some 5 ∧ failingCode (initialised 3 1) (.squeeze 257) = some 6 ∧
    failingCode (initialised 3 1) (.absorb8 28) = none := by decide +kernel

/-- The words of those commands match a row, so their code is the command's; a word that matches none has code 1. -/
theorem witness_failingCodeOfWord (s : State) :
    failingCodeOfWord s 0x15 = some 1 ∧ failingCodeOfWord s 0x08 = failingCode s (.sqzrow0 0) ∧
    failingCodeOfWord s 0x02 = failingCode s .perm12 ∧ failingCodeOfWord s 0x0308 = failingCode s (.sqzrow0 3) ∧
    failingCodeOfWord s 0x1D04 = failingCode s (.absorb8 29) ∧ failingCodeOfWord s 0x010106 = failingCode s (.squeeze 257) :=
  ⟨by rw [failingCodeOfWord, if_pos witness_IllegalWordIsRejected.2], by rw [failingCodeOfWord, if_neg (by simp [commandRows, rowOf])]; rfl,
    by rw [failingCodeOfWord, if_neg (by simp [commandRows, rowOf])]; rfl, by rw [failingCodeOfWord, if_neg (by simp [commandRows, rowOf])]; rfl,
    by rw [failingCodeOfWord, if_neg (by simp [commandRows, rowOf])]; rfl, by rw [failingCodeOfWord, if_neg (by simp [commandRows, rowOf])]; rfl⟩

theorem witness_FirstFailingCheckRejects :
    ((initialised 2 1).accept 8).inflight = some 8 ∧ failingCodeOfWord ((initialised 2 1).accept 8) 8 = some 2 :=
  ⟨rfl, (witness_failingCodeOfWord _).2.1.trans (by decide +kernel)⟩

theorem witness_EveryCommandCompletesOrIsRejected :
    failingCode engine .perm12 ≠ none ∧ failingCode (initialised 3 1) .perm12 = none := by decide +kernel

/-- The engine of the tests meets the invariant, and a command in flight has a next state. -/
theorem witness_StepKeepsInvariant : (engine.accept 1).Inv ∧ ∃ t, step (engine.accept 1) = .next t :=
  ⟨{ instance_legal := by decide +kernel
     mem_wf := by decide +kernel
     mem_inside := by decide +kernel
     out_wf := by decide +kernel
     out_inside := by decide +kernel
     outLen_fits := by decide +kernel
     done_or_err := by decide +kernel
     code_zero := by decide +kernel
     code_known := by decide +kernel
     in_flight := fun w h => ⟨rfl, rfl, by injection h⟩ }, _, rfl⟩

theorem witness_OnlyInitAndResetsChangeStateValid :
    (∃ t, step (engine.accept 1) = .next t ∧ t.sv ≠ (engine.accept 1).sv) ∧
    (∃ t, step { initialised 3 1 with events := [.hardwareReset] } = .next t ∧ t.sv ≠ (initialised 3 1).sv) ∧
    (∃ t, step { initialised 3 1 with events := [.access (.write 1 4)] } = .next t ∧ t.sv ≠ (initialised 3 1).sv) :=
  ⟨⟨_, rfl, by decide +kernel⟩, ⟨_, rfl, by decide +kernel⟩, ⟨_, rfl, by decide +kernel⟩⟩

/-- The whole-machine rules about `exec`: a command that has a next state, one register of each group changed. -/
theorem witness_ExecAnswers :
    (∃ t, exec .agsinit engine = .next t ∧ t.agRow ≠ engine.agRow ∧ t.agPrev ≠ engine.agPrev ∧ t.agStep ≠ engine.agStep) ∧
    (∃ t, exec .selrow { initialised 3 1 with agRowa := 1 } = .next t ∧ t.agRowa ≠ 1) ∧
    (∃ t, exec (.agwinit 2) (initialised 3 1) = .next t ∧ t.agBigstep ≠ (initialised 3 1).agBigstep) ∧
    (∃ t, exec (.squeeze 1) (initialised 3 1) = .next t ∧ t.outLen ≠ (initialised 3 1).outLen) :=
  ⟨⟨_, rfl, by decide +kernel⟩, ⟨_, rfl, by decide +kernel⟩, ⟨_, rfl, by decide +kernel⟩, ⟨_, rfl, by decide +kernel⟩⟩

/-- The memories of the isolation statement: they agree on the matrix, `3 * 1 * 12` words, and differ right above it. -/
theorem witness_CommandsReadOnlyTheMatrix :
    (∃ t, exec (.sqzrow0 2) (initialised 3 1) = .next t) ∧
    (∀ a < 8 * ((initialised 3 1).cfgRows.toNat * (initialised 3 1).cfgCols.toNat * 12),
      Memory.byte? [(288, 1)] a = (initialised 3 1).mem.byte? a) := by
  refine ⟨⟨_, rfl⟩, fun a ha => ?_⟩
  have h : a < 288 := ha
  show (if 288 = a then some 1 else none) = none
  rw [if_neg (by omega)]

/-- A command that writes no matrix word, a byte right above the matrix, and a byte at the length of a squeeze. -/
theorem witness_CommandsWriteOnlyTheMatrix :
    (∃ t, exec (.squeeze 1) (initialised 3 1) = .next t) ∧ writesMatrix (.squeeze 1) = false ∧
    8 * ((initialised 3 1).cfgRows.toNat * (initialised 3 1).cfgCols.toNat * 12) ≤ 288 ∧
    (∀ len, Instr.squeeze 1 = .squeeze len → len ≤ 1) :=
  ⟨⟨_, rfl⟩, rfl, by decide +kernel, fun len h => by injection h with h; omega⟩

theorem witness_UnspecifiedStateIsNeverObserved :
    (engine.accept 1).sv = false ∧ ∃ t, step (engine.accept 1) = .next t ∧ t.sv = true := ⟨rfl, _, rfl, rfl⟩

/-- The statements about one host access to an idle engine: the engine is idle and the access is next. -/
def hostAccess (a : Access) : State := { initialised 3 1 with events := [.access a] }

theorem witness_HostAccess :
    (hostAccess (.write 2 0x16)).busy = false ∧ (hostAccess (.write 2 0x16)).events = .access (.write 2 0x16) :: [] ∧
    (hostAccess (.write 1 3)).busy = false ∧ (3 : Word).getLsbD 2 = false ∧ (4 : Word).getLsbD 2 = true ∧
    (hostAccess (.write 1 4)).busy = false := by decide +kernel

/-- The three clauses of a write to `CMD`: with an error, without, while busy. -/
theorem witness_CommandWrite :
    (hostAccess (.write 3 2)).busy = false ∧ (hostAccess (.write 3 2)).err = false ∧
    (({ hostAccess (.write 3 2) with err := true }) : State).err = true ∧ (busyWith [.access (.write 3 2)]).busy = true ∧
    (busyWith [.access (.write 3 2)]).events = .access (.write 3 2) :: [] := by decide +kernel

theorem witness_HostAccessesAreHeldWhileBusy :
    (busyWith [.access (.write 2 0)]).inflight = some 2 ∧ Access.write 2 0 ≠ .read 2 ∧ Access.write 2 0 ≠ .read 0 ∧
    (busyWith [.access (.read 2)]).inflight = some 2 ∧ (busyWith [.access (.read 0)]).inflight = some 2 := by decide +kernel

/-- Each kind of reserved address at the ends of its range, for `OUT_CAP = 256` and `MEM_WORDS = 4096`; and what is next to it. -/
theorem witness_ReservedAddressesAreInert :
    (∀ h ∈ [0x12, 0xFF, 0x110, 0x1FF, 0x220, 0x3FF, 0x400, 0x0FFFFFFF, 0x10001000, 0xFFFFFFFF], ReservedAddress engine h) ∧
    (∀ h ∈ [0x00, 0x11, 0x100, 0x10F, 0x200, 0x21F, 0x10000000, 0x10000FFF], ¬ReservedAddress engine h) ∧
    (0x11 : HAddr).toNat ∈ [0x00, 0x04, 0x07, 0x0F, 0x10, 0x11] ∧ (hostAccess (.read 0x12)).busy = false := by
  simp [ReservedAddress, engine, hostAccess, initialised, State.busy, State.reset]

theorem witness_HostReadsBackWhatItWrote :
    (0x0E : HAddr).toNat ∈ [0x05, 0x06, 0x08, 0x09, 0x0A, 0x0B, 0x0C, 0x0D, 0x0E] ∧
    (0x10000000 ≤ (0x10000FFF : HAddr).toNat ∧ (0x10000FFF : HAddr).toNat < 0x10000000 + engine.memWords) ∧
    ({ engine with events := [.access (.write 0x0E 7), .access (.read 0x0E)] } : State).busy = false := by decide +kernel

theorem witness_MatrixWindowStoresOneWord :
    (hostAccess (.write 0x10000FFF 7)).busy = false ∧ 4095 < (hostAccess (.write 0x10000FFF 7)).memWords ∧
    (0x10000FFF : HAddr).toNat = 0x10000000 + 4095 ∧ 0 / 8 ≠ 4095 := by decide +kernel

theorem witness_StateWindow :
    (hostAccess (.read 0x10F)).busy = false ∧ (0x10F : HAddr).toNat = 0x100 + (15 : Fin 16).val ∧
    (hostAccess (.read 0x10F)).sv = true ∧ (hostAccess (.read 0x10F)).events = .access (.read 0x10F) :: [] ∧
    (0 : Fin 16) ≠ 15 := by decide +kernel

theorem witness_OutputWindowPacksBytes :
    (hostAccess (.read 0x21F)).busy = false ∧ 31 < 512 ∧ (0x21F : HAddr).toNat = 0x200 + 31 ∧
    8 * 31 + 8 ≤ (hostAccess (.read 0x21F)).outCap ∧ Memory.byte? [(255, 0xA5)] (8 * 31 + 7) = some 0xA5 := by decide +kernel

theorem witness_HostReadReturnsTheRegister :
    (hostAccess (.read 3)).busy = false ∧ (hostAccess (.read 3)).events = .access (.read 3) :: [] ∧
    (engine.accept 7).inflight = some 7 := by decide +kernel

/-- Both values of the parameter in the clause on `CAP_FLAGS`; which of the two an instance has is open (R9). -/
theorem witness_ResetValues : Config.setupStepOrder = .ref ∨ Config.setupStepOrder = .doc := by
  cases Config.setupStepOrder <;> simp

theorem witness_IdentityAndCapabilityRegisters :
    engine.stepOrder = .ref ∧ ({ engine with stepOrder := .doc } : State).stepOrder = .doc := by decide +kernel

theorem witness_HardwareResetAbandonsTheCommand :
    (busyWith [.hardwareReset]).events = .hardwareReset :: [] ∧ (busyWith [.hardwareReset]).inflight = some 2 := by decide +kernel

end Sys2Proof.Tests
end

section
/-! Proofs of the family 10_state.md: the registers as the host reads and writes them, and `CFG_OK`. First the rules these proofs
turn on (the register addresses, an access to an idle engine, the fields of `STATUS`, the configuration check), then the theorem
that settles each statement. -/

namespace Sys2Proof.Machine

open Sys2Proof.Claims

/-! ### Register addresses (R23) -/

@[simp] theorem csrAt_offset (r : Csr) : csrAt r.offset = some r := by
  cases r <;> rfl

theorem Csr.offset_lt (r : Csr) : r.offset < 0x100 := by
  cases r <;> decide

/-- A register's offset is its host word address, whatever the instance's parameters are. -/
theorem State.region_csr (s : State) {h : HAddr} {r : Csr} (hh : h.toNat = r.offset) : s.region h = .csr r :=
  regionOf_csr (hh ▸ r.offset_lt) (by rw [hh, csrAt_offset])

theorem State.busRead_csr (s : State) {h : HAddr} {r : Csr} (hh : h.toNat = r.offset) : s.busRead h = s.readCsr r := by
  rw [State.busRead, s.region_csr hh, State.readRegion]

theorem State.busWrite_csr (s : State) (v : Word) {h : HAddr} {r : Csr} (hh : h.toNat = r.offset) :
    s.busWrite h v = s.writeCsr v r := by
  rw [State.busWrite, s.region_csr hh, State.writeRegion]

theorem State.busRead_status (s : State) : s.busRead 0x00000002 = s.statusWord :=
  s.busRead_csr (r := .status) rfl

/-! ### An access to an idle engine (R64, R65) -/

theorem step_access_of_idle {s : State} {a : Access} {es : List Event} (hb : s.busy = false) (he : s.events = .access a :: es) :
    step s = .next (State.performAccess a { s with events := es }) := by
  simp [step, blockStep, he, hb]

/-- A host write to a register of an idle engine. -/
theorem step_writeCsr_of_idle {s : State} {h : HAddr} {v : Word} {es : List Event} {r : Csr} (hb : s.busy = false)
    (he : s.events = .access (.write h v) :: es) (hh : h.toNat = r.offset) :
    step s = .next (State.writeCsr v { s with events := es } r) := by
  rw [step_access_of_idle hb he, State.performAccess, State.busWrite_csr _ _ hh]

/-! ### The fields of `STATUS` (R26) -/

/-- Bits 7 to 0 of `STATUS`, the lowest first. -/
theorem State.statusWord_flag (s : State) (i : Fin 8) :
    s.statusWord.getLsbD i = #v[s.busy, s.done, s.err, s.sv, s.drop, s.sdone, s.wzero, s.irq][i] := by
  simp only [State.statusWord, BitVec.getLsbD_append]
  fin_cases i <;> simp

/-- The bits above the flags are `ERRCODE`'s, and 0 beyond its eight. -/
theorem State.statusWord_aboveFlags (s : State) (i : Nat) : s.statusWord.getLsbD (8 + i) = s.errCode.getLsbD i := by
  simp only [State.statusWord, BitVec.getLsbD_append]
  simpa using BitVec.lt_of_getLsbD

theorem State.statusWord_errCode (s : State) : s.statusWord.extractLsb' 8 8 = s.errCode := by
  refine BitVec.eq_of_getLsbD_eq fun i hi => ?_
  rw [BitVec.getLsbD_extractLsb', s.statusWord_aboveFlags, decide_eq_true hi, Bool.true_and]

theorem State.statusWord_reserved (s : State) : s.statusWord.extractLsb' 16 48 = 0 := by
  refine BitVec.eq_of_getLsbD_eq fun i _ => ?_
  have beyond : s.statusWord.getLsbD (16 + i) = false := by
    rw [show 16 + i = 8 + (8 + i) by omega, s.statusWord_aboveFlags]
    exact BitVec.getLsbD_of_ge _ _ (by omega)
  rw [BitVec.getLsbD_extractLsb', beyond]
  simp

theorem State.sdone_iff (s : State) : s.sdone = true ↔ s.cfgRows.toNat ≤ s.agRow.toNat := by
  simp [State.sdone]

theorem State.wzero_iff (s : State) : s.wzero = true ↔ s.agRow = 0 := by
  simp [State.wzero]

/-- The three write-1-to-clear fields, each kept where the written bit is 0 (R26, R28, R29, R31). -/
theorem State.writeStatus_eq (s : State) (v : Word) :
    s.writeStatus v = { s with
      done := s.done && !v.getLsbD 1
      err := s.err && !v.getLsbD 2
      errCode := if v.getLsbD 2 then 0 else s.errCode
      drop := s.drop && !v.getLsbD 4 } := by
  unfold State.writeStatus State.clearErr
  cases v.getLsbD 1 <;> cases v.getLsbD 2 <;> cases v.getLsbD 4 <;> simp

/-! ### The configuration check (R22, R116, R117) -/

/-- Check 2 is the first one made of a command that uses the configuration. -/
theorem checksOf_of_usesConfiguration {i : Instr} (s : State) (h : usesConfiguration i = true) :
    ∃ cs, checksOf i s = .cfgOk :: cs := by
  cases i with
  | nop | init | perm12 | perm1 | squeeze | agsinit => cases h
  | absorb8 | absorb12 | sqzrow0 | duprow1 | dupsetup | duprow | selrow | agsstep | agwinit | agwstep => exact ⟨_, rfl⟩

theorem firstFailure_cons_of_fails {s : State} {c : Check} (cs : List Check) (h : c.passes s = false) :
    firstFailure s (c :: cs) = some c.code := by
  simp [firstFailure, h]

/-- A command in flight is rejected with its own word in `ERRINFO` (R117). -/
theorem State.reject_eq_of_inflight {s : State} {w : Word} (h : s.inflight = some w) (e : ErrCode) :
    s.reject e = { s with err := true, errCode := e.value, errInfo := w, inflight := none } := by
  simp [State.reject, State.commandWord, h]

theorem exec_of_not_cfgOk {s : State} {i : Instr} (hi : usesConfiguration i = true) (hc : s.cfgOk = false) :
    exec i s = .next (s.reject .cfg) := by
  obtain ⟨cs, hcs⟩ := checksOf_of_usesConfiguration s hi
  exact exec_of_fails (hcs ▸ firstFailure_cons_of_fails cs hc)

/-! ### The statements -/

/-- Settles O31: `CFG_OK` is check 2, the first check of each of the ten commands, so its failure alone decides the code. -/
theorem configurationValidity : Obligations.ConfigurationValidity := by
  refine ⟨State.cfgOk_iff, fun s i w hi hc hw => ?_⟩
  rw [exec_of_not_cfgOk hi hc, State.reject_eq_of_inflight hw]
  rfl

/-- Settles O42: the fields of a `STATUS` read one by one, the reset word, and a write as `State.writeStatus_eq` has it. -/
theorem statusRegister : Obligations.StatusRegister := by
  refine ⟨fun s => ?fields, ?atReset, fun s v es hb he => ?write⟩
  case fields =>
    rw [State.busRead_status]
    exact ⟨s.statusWord_flag 0, s.statusWord_flag 1, s.statusWord_flag 2, s.statusWord_flag 3, s.statusWord_flag 4,
      s.statusWord_flag 5, s.statusWord_flag 6, s.statusWord_flag 7, s.statusWord_errCode, s.statusWord_reserved⟩
  case atReset =>
    rw [State.busRead_status]
    decide
  case write => rw [step_writeCsr_of_idle (r := .status) hb he rfl, State.writeCsr, State.writeStatus_eq]

/-- Settles O43: bits 5 and 6 of `STATUS` are the two comparisons. -/
theorem loopExitBits : Obligations.LoopExitBits := by
  intro s
  have sdone : s.statusWord.getLsbD 5 = s.sdone := s.statusWord_flag 5
  have wzero : s.statusWord.getLsbD 6 = s.wzero := s.statusWord_flag 6
  rw [State.busRead_status, sdone, wzero]
  exact ⟨s.sdone_iff, s.wzero_iff⟩

/-- Settles O48: the reads and the ignored writes register by register, then the two resets. -/
theorem identityAndCapabilityRegisters : Obligations.IdentityAndCapabilityRegisters := by
  intro s v
  refine ⟨⟨?_, ?_, ?_, fun ho => ?_, fun ho => ?_⟩, ⟨?_, ?_, ?_, ?_⟩, ?resets⟩
  · exact s.busRead_csr (r := .id) rfl
  · exact s.busRead_csr (r := .capMemWords) rfl
  · exact s.busRead_csr (r := .capOut) rfl
  · rw [s.busRead_csr (r := .capFlags) rfl, State.readCsr, State.capFlagsWord, ho]
  · rw [s.busRead_csr (r := .capFlags) rfl, State.readCsr, State.capFlagsWord, ho]
  · exact s.busWrite_csr v (r := .id) rfl
  · exact s.busWrite_csr v (r := .capMemWords) rfl
  · exact s.busWrite_csr v (r := .capOut) rfl
  · exact s.busWrite_csr v (r := .capFlags) rfl
  case resets => rintro t (rfl | rfl) <;> simp

end Sys2Proof.Machine
end

section
/-! Proofs of the family 30_encoding.md: the decoder against the table of masks and opcodes (R76, R77). A command's constructor
fixes its format, its opcode and so its row; the decoder reads only the operands from the word. -/

namespace Sys2Proof.Laws

open Sys2Proof.Claims

/-- The format of a command (R76). -/
def formatOf : Instr → Format
  | .nop | .init | .perm12 | .perm1 | .selrow | .agsinit | .agsstep | .agwstep => .n
  | .absorb8 _ => .a
  | .squeeze _ => .l
  | .agwinit _ => .t
  | .absorb12 _ | .sqzrow0 _ => .r1
  | .duprow1 _ _ => .r2
  | .dupsetup _ _ _ | .duprow _ _ _ => .r3

/-- The command of the same row whose operands are the fields of the word `w` (R74). -/
def readOperands (w : Word) : Instr → Instr
  | .nop => .nop
  | .init => .init
  | .perm12 => .perm12
  | .perm1 => .perm1
  | .absorb8 _ => .absorb8 (fieldLong w)
  | .absorb12 _ => .absorb12 (fieldRA w)
  | .squeeze _ => .squeeze (fieldLong w)
  | .sqzrow0 _ => .sqzrow0 (fieldRA w)
  | .duprow1 _ _ => .duprow1 (fieldRA w) (fieldRB w)
  | .dupsetup _ _ _ => .dupsetup (fieldRA w) (fieldRB w) (fieldRC w)
  | .duprow _ _ _ => .duprow (fieldRA w) (fieldRB w) (fieldRC w)
  | .selrow => .selrow
  | .agsinit => .agsinit
  | .agsstep => .agsstep
  | .agwinit _ => .agwinit (fieldLong w)
  | .agwstep => .agwstep

/-! ### The rows of the table (R76, R77) -/

theorem rowOf_eq (i : Instr) : rowOf i = ((formatOf i).mask, (opcodeNumber i).setWidth 64) := by
  cases i <;> rfl

@[simp] theorem rowOf_readOperands (w : Word) (i : Instr) : rowOf (readOperands w i) = rowOf i := by
  cases i <;> rfl

theorem rowOf_mem_commandRows (i : Instr) : rowOf i ∈ commandRows := by
  cases i <;> simp [commandRows, rowOf]

theorem exists_rowOf_of_mem {r : Word × Word} (h : r ∈ commandRows) : ∃ i, rowOf i = r := by
  obtain ⟨i, -, hi⟩ := List.mem_map.mp h
  exact ⟨i, hi⟩

/-! ### The opcode under a mask (R71) -/

theorem opcodeOf_setWidth (opc : Byte) : opcodeOf (opc.setWidth 64) = opc := by
  refine BitVec.eq_of_getLsbD_eq fun i hi => ?_
  rw [opcodeOf, BitVec.getLsbD_extractLsb', Nat.zero_add, BitVec.getLsbD_setWidth]
  simp [hi, show i < 64 by omega]

/-- Every mask has all eight opcode bits, so masking keeps the opcode. -/
theorem opcodeOf_and_mask (w : Word) (f : Format) : opcodeOf (w &&& f.mask) = opcodeOf w := by
  have hmask : f.mask.extractLsb' 0 8 = BitVec.allOnes 8 := by cases f <;> rfl
  rw [opcodeOf, BitVec.extractLsb'_and, hmask, BitVec.and_allOnes, opcodeOf]

/-- A word matches a command's row when its opcode is the command's and no reserved bit of the format is set. -/
theorem matchesRow_iff (w : Word) (i : Instr) :
    w &&& (rowOf i).1 = (rowOf i).2 ↔
      opcodeOf w = opcodeNumber i ∧ w &&& (formatOf i).mask = (opcodeOf w).setWidth 64 := by
  rw [rowOf_eq]
  constructor
  · intro hm
    have hop : opcodeOf w = opcodeNumber i := by
      rw [← opcodeOf_and_mask w (formatOf i), hm, opcodeOf_setWidth]
    exact ⟨hop, hop ▸ hm⟩
  · rintro ⟨hop, hm⟩
    exact hop ▸ hm

/-! ### The decoder, by opcode -/

/-- On a command's opcode the decoder tries that command's format, with the operands of the word. -/
theorem decode_of_opcode {w : Word} {i : Instr} (h : opcodeOf w = opcodeNumber i) :
    decode w = decodeAs (formatOf i) w (readOperands w i) := by
  cases i <;> rw [decode, h] <;> rfl

/-- A decoded command has the opcode of its word: each arm of the opcode map answers only its own command. -/
theorem opcodeOf_of_decode_ok {w : Word} {i : Instr} (h : decode w = .ok i) : opcodeOf w = opcodeNumber i := by
  unfold decode at h
  split at h
  case h_17 => cases h
  all_goals
    rename_i hop
    obtain ⟨-, rfl⟩ := decodeAs_ok h
    exact BitVec.eq_of_toNat_eq hop

theorem matchesRow_of_decode_ok {w : Word} {i : Instr} (h : decode w = .ok i) : w &&& (rowOf i).1 = (rowOf i).2 := by
  have hop := opcodeOf_of_decode_ok h
  rw [decode_of_opcode hop] at h
  exact (matchesRow_iff w i).mpr ⟨hop, (decodeAs_ok h).1⟩

theorem decode_of_matchesRow {w : Word} {i : Instr} (h : w &&& (rowOf i).1 = (rowOf i).2) :
    decode w = .ok (readOperands w i) := by
  obtain ⟨hop, hm⟩ := (matchesRow_iff w i).mp h
  rw [decode_of_opcode hop, decodeAs, if_pos hm]

/-- The decoder answers a command of a row exactly on the words that match the row. -/
theorem decodes_to_row_iff (w : Word) {r : Word × Word} (hr : r ∈ commandRows) :
    (∃ i, decode w = .ok i ∧ rowOf i = r) ↔ w &&& r.1 = r.2 := by
  constructor
  · rintro ⟨i, hi, rfl⟩
    exact matchesRow_of_decode_ok hi
  · intro hm
    obtain ⟨i, rfl⟩ := exists_rowOf_of_mem hr
    exact ⟨readOperands w i, decode_of_matchesRow hm, rowOf_readOperands w i⟩

/-! ### The statement -/

/-- Settles O3: the first sentence row by row; a word of two rows decodes to a command of each, and the decoder has one answer; a
decoded command's own row is matched, so a word of no row is refused. -/
theorem decoderFollowsMaskTable : Obligations.DecoderFollowsMaskTable := by
  refine ⟨fun w r hr => decodes_to_row_iff w hr, fun w r hr r' hr' hm hm' => ?oneRow, fun w hno => ?noRow⟩
  case oneRow =>
    obtain ⟨i, hi, rfl⟩ := (decodes_to_row_iff w hr).mpr hm
    obtain ⟨j, hj, rfl⟩ := (decodes_to_row_iff w hr').mpr hm'
    rw [Except.ok.inj (hi.symm.trans hj)]
  case noRow =>
    cases hd : decode w with
    | error e => exact ⟨e, rfl⟩
    | ok i => exact absurd (matchesRow_of_decode_ok hd) (hno _ (rowOf_mem_commandRows i))

end Sys2Proof.Laws
end

section
/-! Proofs of the family 40_permutation.md: the mixing operation and the rounds (R82 to R87). The eight lines of `G` are four lines
twice, with the rotations by 32 and 24 and then by 16 and 63: one rule for the four lines, used twice, gives every word. -/

namespace Sys2Proof.Machine

/-! ### Rotation (R11) -/

theorem rotr_eq_rotateRight (x : Word) {n : Nat} (h : n < 64) : rotr x n = x.rotateRight n := by
  rw [rotr, BitVec.rotateRight, BitVec.rotateRightAux, Nat.mod_eq_of_lt h]

/-! ### One word of the state -/

theorem Sponge.get_set (S : Sponge) (i j : Fin 16) (x : Word) : (S.set i x)[j] = if j = i then x else S[j] := by
  simp only [Fin.getElem_fin, Vector.getElem_set, Fin.val_inj, eq_comm]

/-! ### The mixing operation (R82) -/

/-- Four lines of `G`, with the rotations by `p` and `q`. -/
def mixHalf (p q : Nat) (S : Sponge) (a b c d : Fin 16) : Sponge :=
  let S := S.set a (S[a] + S[b])
  let S := S.set d (rotr (S[d] ^^^ S[a]) p)
  let S := S.set c (S[c] + S[d])
  S.set b (rotr (S[b] ^^^ S[c]) q)

/-- The eight lines of `G` are its four lines twice (R82). -/
theorem mix_eq_mixHalf_mixHalf (S : Sponge) (a b c d : Fin 16) :
    mix S a b c d = mixHalf 16 63 (mixHalf 32 24 S a b c d) a b c d := rfl

section
variable {S : Sponge} {a b c d : Fin 16}

/-- A word that is none of the four is left alone. -/
theorem mixHalf_get_of_ne {p q : Nat} {j : Fin 16} (ha : j ≠ a) (hb : j ≠ b) (hc : j ≠ c) (hd : j ≠ d) :
    (mixHalf p q S a b c d)[j] = S[j] := by
  simp only [mixHalf, Sponge.get_set, ha, hb, hc, hd, if_false]

theorem mix_get_of_ne {j : Fin 16} (ha : j ≠ a) (hb : j ≠ b) (hc : j ≠ c) (hd : j ≠ d) :
    (mix S a b c d)[j] = S[j] := by
  rw [mix_eq_mixHalf_mixHalf, mixHalf_get_of_ne ha hb hc hd, mixHalf_get_of_ne ha hb hc hd]

variable (hab : a ≠ b) (hac : a ≠ c) (had : a ≠ d) (hbc : b ≠ c) (hbd : b ≠ d) (hcd : c ≠ d)
include hab hac had hbc hbd hcd

/-- What four lines of `G` leave in the four words, each line named by the value it writes. -/
theorem mixHalf_get {p q : Nat} (hp : p < 64) (hq : q < 64) {a' d' c' b' : Word} (ha : a' = S[a] + S[b])
    (hd : d' = (S[d] ^^^ a').rotateRight p) (hc : c' = S[c] + d') (hb : b' = (S[b] ^^^ c').rotateRight q) :
    (mixHalf p q S a b c d)[a] = a' ∧ (mixHalf p q S a b c d)[b] = b' ∧ (mixHalf p q S a b c d)[c] = c' ∧
      (mixHalf p q S a b c d)[d] = d' := by
  subst ha hd hc hb
  simp only [mixHalf, rotr_eq_rotateRight _ hp, rotr_eq_rotateRight _ hq, Sponge.get_set, hab, hac, had, hbc, hbd, hcd, hab.symm,
    hac.symm, had.symm, hbc.symm, hbd.symm, hcd.symm, if_true, if_false, and_self]

/-- What the eight lines of `G` leave in the four words: `mixHalf_get` twice. -/
theorem mix_get {a1 d1 c1 b1 a2 d2 c2 b2 : Word} (ha1 : a1 = S[a] + S[b]) (hd1 : d1 = (S[d] ^^^ a1).rotateRight 32)
    (hc1 : c1 = S[c] + d1) (hb1 : b1 = (S[b] ^^^ c1).rotateRight 24) (ha2 : a2 = a1 + b1)
    (hd2 : d2 = (d1 ^^^ a2).rotateRight 16) (hc2 : c2 = c1 + d2) (hb2 : b2 = (b1 ^^^ c2).rotateRight 63) :
    (mix S a b c d)[a] = a2 ∧ (mix S a b c d)[b] = b2 ∧ (mix S a b c d)[c] = c2 ∧ (mix S a b c d)[d] = d2 := by
  obtain ⟨hSa, hSb, hSc, hSd⟩ := mixHalf_get hab hac had hbc hbd hcd (by decide) (by decide) ha1 hd1 hc1 hb1
  rw [mix_eq_mixHalf_mixHalf]
  exact mixHalf_get hab hac had hbc hbd hcd (by decide) (by decide) (by rw [hSa, hSb, ha2]) (by rw [hSd, hd2])
    (by rw [hSc, hc2]) (by rw [hSb, hb2])

end

/-- The worked example of R82: the words of `mix_get`, with `1, 2, 3, 4` in the column. -/
theorem mix_column_of_1_2_3_4 {S : Sponge} (h0 : S[0] = 1) (h4 : S[4] = 2) (h8 : S[8] = 3) (h12 : S[12] = 4) :
    (mix S 0 4 8 12)[0] = 0x0000010000000703 ∧ (mix S 0 4 8 12)[4] = 0x0E06020E020E0E06 ∧
      (mix S 0 4 8 12)[8] = 0x0703000701070003 ∧ (mix S 0 4 8 12)[12] = 0x0703000001070000 := by
  have ha1 : (3 : Word) = S[0] + S[4] := by rw [h0, h4]; rfl
  have hd1 : (0x0000000700000000 : Word) = (S[12] ^^^ 3).rotateRight 32 := by rw [h12]; rfl
  have hc1 : (0x0000000700000003 : Word) = S[8] + 0x0000000700000000 := by rw [h8]; rfl
  have hb1 : (0x0000010000000700 : Word) = (S[4] ^^^ 0x0000000700000003).rotateRight 24 := by rw [h4]; rfl
  exact mix_get (a := 0) (b := 4) (c := 8) (d := 12) (by decide) (by decide) (by decide) (by decide) (by decide) (by decide)
    ha1 hd1 hc1 hb1 rfl rfl rfl rfl

/-! ### The rounds (R86) -/

theorem permuteFull_eq_iterate_spongeRound (S : Sponge) : permuteFull S = spongeRound^[12] S :=
  spongeRounds_eq 12 S

/-! ### The statements -/

/-- Settles O7: the four words by `mix_get`, the other twelve by `mix_get_of_ne`, and the worked example. -/
theorem mixingStepDoesItsEightLines : Obligations.MixingStepDoesItsEightLines := by
  refine ⟨fun S a b c d hab hac had hbc hbd hcd a1 d1 c1 b1 a2 d2 c2 b2 ha1 hd1 hc1 hb1 ha2 hd2 hc2 hb2 => ?lines,
    fun S h0 h4 h8 h12 => mix_column_of_1_2_3_4 h0 h4 h8 h12⟩
  case lines =>
    obtain ⟨ha, hb, hc, hd⟩ := mix_get hab hac had hbc hbd hcd ha1 hd1 hc1 hb1 ha2 hd2 hc2 hb2
    exact ⟨ha, hb, hc, hd, fun j hja hjb hjc hjd => mix_get_of_ne hja hjb hjc hjd⟩

/-- Settles O8: the round is written as these eight steps. -/
theorem roundIsEightMixingSteps : Obligations.RoundIsEightMixingSteps :=
  fun _ => rfl

/-- Settles O9: a full permutation is `spongeRound` iterated, and the reduced one is `spongeRound` itself. -/
theorem fullPermutationIsTwelveReduced : Obligations.FullPermutationIsTwelveReduced := by
  intro S
  have reduced : permuteReduced = spongeRound := funext permuteReduced_eq
  rw [reduced]
  exact ⟨rfl, permuteFull_eq_iterate_spongeRound S, permuteFull_eq_iterate_spongeRound S⟩

end Sys2Proof.Machine
end

section
/-! Proofs of the family 60_exceptions.md: a write to `CMD` (R115) and the check table (R116, R117). The checks of a command are
the table's rows one after another, so the first check that fails is the first row of the table that fails. -/

namespace Sys2Proof.Machine

open Sys2Proof.Claims

/-! ### The first failure of a list of checks (R116) -/

/-- The first check of a list decides when it fails, and the rest decide when it passes. -/
theorem firstFailure_cons {s : State} {c : Check} {p : Prop} [Decidable p] (hc : c.passes s = false ↔ p) (cs : List Check) :
    firstFailure s (c :: cs) = if p then some c.code else firstFailure s cs := by
  by_cases hp : p
  · rw [firstFailure_cons_of_fails cs (hc.mpr hp), if_pos hp]
  · have passes : c.passes s = true := Bool.eq_true_of_not_eq_false (mt hc.mp hp)
    rw [firstFailure, if_pos passes, if_neg hp]

/-- Check 2 or 3, which only some commands make: it fails when the command makes it and it does not pass. -/
theorem firstFailure_guarded_append {s : State} (b : Bool) {c : Check} {p : Prop} [Decidable p]
    (hc : c.passes s = false ↔ p) (cs : List Check) :
    firstFailure s ((if b then [c] else []) ++ cs) = if b = true ∧ p then some c.code else firstFailure s cs := by
  cases b with
  | false => simp
  | true => simp [firstFailure_cons hc]

/-! ### When each check fails (R116, R121 to R125) -/

theorem cfgOk_fails_iff (s : State) : Check.cfgOk.passes s = false ↔ ¬CfgOk s := by
  rw [Check.passes, ← Bool.not_eq_true]
  exact not_congr s.cfgOk_iff

theorem stateValid_fails_iff (s : State) : Check.stateValid.passes s = false ↔ s.sv = false := Iff.rfl

theorem rowBelow_fails_iff (s : State) (r : Nat) : (Check.rowBelow r).passes s = false ↔ s.cfgRows.toNat ≤ r :=
  decide_eq_false_iff_not.trans Nat.not_lt

theorem addrInside_fails_iff (s : State) (addr : Nat) :
    (Check.addrInside addr).passes s = false ↔ s.cfgRows.toNat * s.cfgCols.toNat * 12 < addr + 8 :=
  decide_eq_false_iff_not.trans Nat.not_le

theorem lenFits_fails_iff (s : State) (len : Nat) : (Check.lenFits len).passes s = false ↔ s.outCap < len :=
  decide_eq_false_iff_not.trans Nat.not_le

/-- Check 4 on a list of row operands: some row is not below `ROWS` (R123). -/
theorem firstFailure_rowBelow_append (s : State) (rs : List Nat) (cs : List Check) :
    firstFailure s (rs.map .rowBelow ++ cs) =
      if ∃ r ∈ rs, s.cfgRows.toNat ≤ r then some .row else firstFailure s cs := by
  induction rs with
  | nil => simp
  | cons r rs ih =>
    rw [List.map_cons, List.cons_append, firstFailure_cons (rowBelow_fails_iff s r), ih]
    by_cases hr : s.cfgRows.toNat ≤ r <;> simp [hr, Check.code]

/-! ### The checks of a command, row by row of the table (R116) -/

/-- The checks of an address and of a length, the last ones of the commands that make them (R124, R125). -/
def boundChecks : Instr → List Check
  | .absorb8 addr => [.addrInside addr]
  | .squeeze len => [.lenFits len]
  | _ => []

/-- A command's checks are the rows of the table in their order. -/
theorem checksOf_eq_table (i : Instr) (s : State) :
    checksOf i s = (if usesConfiguration i then [.cfgOk] else []) ++ ((if readsState i then [.stateValid] else []) ++
      ((rowOperands s i).map .rowBelow ++ boundChecks i)) := by
  cases i <;> rfl

/-- The code the table gives is the code of the first check of the list that fails. -/
theorem failingCode_eq (s : State) (i : Instr) :
    failingCode s i = (firstFailure s (checksOf i s)).map (·.value.toNat) := by
  rw [checksOf_eq_table, firstFailure_guarded_append _ (cfgOk_fails_iff s),
    firstFailure_guarded_append _ (stateValid_fails_iff s), firstFailure_rowBelow_append]
  unfold failingCode
  split_ifs with hcfg hstate hrow
  · rfl
  · rfl
  · rfl
  · cases i with
    | absorb8 addr =>
      rw [boundChecks, firstFailure_cons (addrInside_fails_iff s addr), apply_ite (Option.map _)]
      rfl
    | squeeze len =>
      rw [boundChecks, firstFailure_cons (lenFits_fails_iff s len), apply_ite (Option.map _)]
      rfl
    | _ => rfl

/-- A command whose row of the table fails is rejected with the table's code. -/
theorem exec_of_failingCode {s : State} {i : Instr} {c : Nat} (h : failingCode s i = some c) :
    ∃ e : ErrCode, e.value = BitVec.ofNat 8 c ∧ exec i s = .next (s.reject e) := by
  rw [failingCode_eq] at h
  obtain ⟨e, he, rfl⟩ := Option.map_eq_some_iff.mp h
  exact ⟨e, by rw [BitVec.ofNat_toNat, BitVec.setWidth_eq], exec_of_fails he⟩

/-! ### The engine's step on a latched word (R114, R120) -/

theorem engineStep_of_decode_ok {s : State} {w : Word} {i : Instr} (hw : s.inflight = some w) (hd : decode w = .ok i) :
    engineStep s = exec i s := by
  simp [engineStep, hw, hd]

theorem engineStep_of_decode_error {s : State} {w : Word} {e : DecodeError} (hw : s.inflight = some w)
    (hd : decode w = .error e) : engineStep s = .next (s.reject .opcode) := by
  simp [engineStep, hw, hd]

/-- Check 1 passes on a word that decodes: its own row matches (R77). -/
theorem failingCodeOfWord_of_decode_ok {w : Word} {i : Instr} (s : State) (hd : decode w = .ok i) :
    failingCodeOfWord s w = failingCode s i := by
  have row : ¬∀ r ∈ commandRows, w &&& r.1 ≠ r.2 := fun hno =>
    hno _ (Laws.rowOf_mem_commandRows i) (Laws.matchesRow_of_decode_ok hd)
  rw [failingCodeOfWord, if_neg row, hd]

/-- Check 1 fails on a word that does not decode: a word of a row would (R77). -/
theorem failingCodeOfWord_of_decode_error {w : Word} {e : DecodeError} (s : State) (hd : decode w = .error e) :
    failingCodeOfWord s w = some 1 := by
  refine if_pos fun r hr hm => ?_
  obtain ⟨i, hi, -⟩ := (Laws.decodes_to_row_iff w hr).mpr hm
  cases hd.symm.trans hi

/-! ### A write to `CMD` (R64, R115) -/

theorem State.issue_of_err {s : State} (w : Word) (h : s.err = true) : s.issue w = { s with drop := true, cmd := w } :=
  if_pos h

theorem State.issue_of_not_err {s : State} (w : Word) (h : s.err = false) : s.issue w = s.accept w :=
  if_neg (Bool.eq_false_iff.mp h)

/-- An access that is held while a command is in flight leaves the step to the engine. -/
theorem step_access_of_held {s : State} {a : Access} {es : List Event} (hb : s.busy = true) (ha : a.passesHold = false)
    (he : s.events = .access a :: es) : step s = engineStep s := by
  simp [step, blockStep, he, hb, ha]

/-! ### The statements -/

/-- Settles O32: a word that does not decode fails check 1; one that does has the code of its command's first failing check. -/
theorem firstFailingCheckRejects : Obligations.FirstFailingCheckRejects := by
  intro s w c hw hc
  cases hd : decode w with
  | error e =>
    obtain rfl : 1 = c := Option.some.inj ((failingCodeOfWord_of_decode_error s hd).symm.trans hc)
    rw [engineStep_of_decode_error hw hd, State.reject_eq_of_inflight hw]
    rfl
  | ok i =>
    rw [failingCodeOfWord_of_decode_ok s hd] at hc
    obtain ⟨e, hcode, hexec⟩ := exec_of_failingCode hc
    rw [engineStep_of_decode_ok hw hd, hexec, State.reject_eq_of_inflight hw, hcode]

/-- Settles O45: an idle engine takes the write as `State.issue` has it, a busy one holds it. -/
theorem commandWriteIsIssuedDroppedOrHeld : Obligations.CommandWriteIsIssuedDroppedOrHeld := by
  refine fun s w es he => ⟨fun hb herr => ?dropped, fun hb herr => ?issued, fun hb => step_access_of_held hb rfl he⟩
  case dropped =>
    rw [step_writeCsr_of_idle (r := .cmd) hb he rfl]
    exact congrArg _ (State.issue_of_err (s := { s with events := es }) w herr)
  case issued =>
    rw [step_writeCsr_of_idle (r := .cmd) hb he rfl]
    exact congrArg _ (State.issue_of_not_err (s := { s with events := es }) w herr)

end Sys2Proof.Machine
end

section
/-! Proofs of the family 30_encoding.md: a command's word read as a number. Every format is an opcode below operand fields below
reserved bits that are 0 (R72, R73), so decoding what was encoded, and encoding what was decoded, are divisions with remainder. -/

namespace Sys2Proof.Laws

/-! ### The reserved bits of a format (R72, R77) -/

/-- The first bit above the operand fields of a format; the bits from it on are reserved (R72). -/
def operandEnd : Format → Nat
  | .n => 8
  | .a | .l | .t | .r2 => 40
  | .r1 => 24
  | .r3 => 56

theorem eight_le_operandEnd (f : Format) : 8 ≤ operandEnd f := by
  cases f <;> decide

theorem mask_getLsbD (f : Format) (i : Fin 64) :
    f.mask.getLsbD i = (decide (i.val < 8) || decide (operandEnd f ≤ i.val)) := by
  revert i
  cases f <;> decide

theorem opcodeOf_setWidth_getLsbD (w : Word) (i : Fin 64) :
    ((opcodeOf w).setWidth 64).getLsbD i = (decide (i.val < 8) && w.getLsbD i) := by
  simp [opcodeOf, BitVec.getLsbD_extractLsb', i.isLt]

/-- A word passes its format's mask exactly when it has nothing above the operand fields. -/
theorem and_mask_eq_opcode_iff (f : Format) (w : Word) :
    w &&& f.mask = (opcodeOf w).setWidth 64 ↔ w.toNat < 2 ^ operandEnd f := by
  have hend := eight_le_operandEnd f
  constructor
  · intro hm
    refine Nat.lt_pow_two_of_testBit _ fun i hi => ?_
    rw [BitVec.testBit_toNat]
    rcases Nat.lt_or_ge i 64 with h64 | h64
    · have hbit := congrArg (·.getLsbD i) hm
      simp only [BitVec.getLsbD_and, mask_getLsbD f ⟨i, h64⟩, opcodeOf_setWidth_getLsbD w ⟨i, h64⟩] at hbit
      simpa [hi, show ¬i < 8 by omega] using hbit
    · exact BitVec.getLsbD_of_ge _ _ h64
  · intro hlt
    refine BitVec.eq_of_getLsbD_eq fun i hi => ?_
    rw [BitVec.getLsbD_and, mask_getLsbD f ⟨i, hi⟩, opcodeOf_setWidth_getLsbD w ⟨i, hi⟩]
    rcases Nat.lt_or_ge i (operandEnd f) with h | h
    · simp [show ¬operandEnd f ≤ i by omega, Bool.and_comm]
    · have zero : w.getLsbD i = false := by
        rw [← BitVec.testBit_toNat]
        exact Nat.testBit_lt_two_pow (Nat.lt_of_lt_of_le hlt (Nat.pow_le_pow_right (by decide) h))
      simp [zero]

/-! ### The five layouts as numbers (R72) -/

theorem toNat_append_add {n m : Nat} (x : BitVec n) (y : BitVec m) : (x ++ y).toNat = x.toNat * 2 ^ m + y.toNat := by
  rw [BitVec.toNat_append, ← Nat.shiftLeft_add_eq_or_of_lt y.isLt, Nat.shiftLeft_eq]

theorem packN_toNat (opc : Byte) : (packN opc).toNat = opc.toNat := by
  simp only [packN, toNat_append_add, BitVec.toNat_ofNat]
  omega

theorem packLong_toNat (opc : Byte) (v : Nat) : (packLong opc v).toNat = v % 2 ^ 32 * 2 ^ 8 + opc.toNat := by
  simp only [packLong, toNat_append_add, BitVec.toNat_ofNat]
  omega

theorem packR1_toNat (opc : Byte) (ra : Nat) : (packR1 opc ra).toNat = ra % 2 ^ 16 * 2 ^ 8 + opc.toNat := by
  simp only [packR1, toNat_append_add, BitVec.toNat_ofNat]
  omega

theorem packR2_toNat (opc : Byte) (ra rb : Nat) :
    (packR2 opc ra rb).toNat = rb % 2 ^ 16 * 2 ^ 24 + ra % 2 ^ 16 * 2 ^ 8 + opc.toNat := by
  simp only [packR2, toNat_append_add, BitVec.toNat_ofNat]
  omega

theorem packR3_toNat (opc : Byte) (ra rb rc : Nat) :
    (packR3 opc ra rb rc).toNat =
      rc % 2 ^ 16 * 2 ^ 40 + rb % 2 ^ 16 * 2 ^ 24 + ra % 2 ^ 16 * 2 ^ 8 + opc.toNat := by
  simp only [packR3, toNat_append_add, BitVec.toNat_ofNat]
  omega

/-! ### The fields as numbers (R71, R74) -/

theorem opcodeOf_toNat (w : Word) : (opcodeOf w).toNat = w.toNat % 2 ^ 8 := by
  simp [opcodeOf]

theorem fieldRA_eq (w : Word) : fieldRA w = w.toNat / 2 ^ 8 % 2 ^ 16 := by
  simp [fieldRA, Nat.shiftRight_eq_div_pow]

theorem fieldRB_eq (w : Word) : fieldRB w = w.toNat / 2 ^ 24 % 2 ^ 16 := by
  simp [fieldRB, Nat.shiftRight_eq_div_pow]

theorem fieldRC_eq (w : Word) : fieldRC w = w.toNat / 2 ^ 40 % 2 ^ 16 := by
  simp [fieldRC, Nat.shiftRight_eq_div_pow]

theorem fieldLong_eq (w : Word) : fieldLong w = w.toNat / 2 ^ 8 % 2 ^ 32 := by
  simp [fieldLong, Nat.shiftRight_eq_div_pow]

theorem fitsRow_iff (r : Nat) : fitsRow r = true ↔ r < 2 ^ 16 := by
  simp [fitsRow]

theorem fitsLong_iff (v : Nat) : fitsLong v = true ↔ v < 2 ^ 32 := by
  simp [fitsLong]

/-! ### Decoding an encoded command -/

theorem opcodeOf_encode (i : Instr) : opcodeOf (encode i) = opcodeNumber i := by
  cases i <;> exact opcodeOf_append _ _

/-- An encoded command has nothing above its operand fields. -/
theorem encode_toNat_lt (i : Instr) : (encode i).toNat < 2 ^ operandEnd (formatOf i) := by
  have hopc := (opcodeNumber i).isLt
  cases i <;> simp only [opcodeNumber] at hopc <;>
    simp only [encode, packN_toNat, packLong_toNat, packR1_toNat, packR2_toNat, packR3_toNat, formatOf, operandEnd] <;> omega

/-- Reading the operand fields of an encoded command gives back its operands, when they fit. -/
theorem readOperands_encode {i : Instr} (h : i.wellFormed = true) : readOperands (encode i) i = i := by
  cases i <;>
    simp only [Instr.wellFormed, Bool.and_eq_true, fitsRow_iff, fitsLong_iff] at h <;>
    simp only [readOperands, encode, fieldLong_eq, fieldRA_eq, fieldRB_eq, fieldRC_eq, packLong_toNat, packR1_toNat, packR2_toNat,
      packR3_toNat, Instr.absorb8.injEq, Instr.absorb12.injEq, Instr.squeeze.injEq, Instr.sqzrow0.injEq, Instr.duprow1.injEq,
      Instr.dupsetup.injEq, Instr.duprow.injEq, Instr.agwinit.injEq] <;> omega

/-! ### Encoding a decoded command -/

theorem readOperands_wellFormed (w : Word) (i : Instr) : (readOperands w i).wellFormed = true := by
  have hrow : ∀ n, n % 2 ^ 16 < 2 ^ 16 := fun n => Nat.mod_lt _ (by decide)
  have hlong : ∀ n, n % 2 ^ 32 < 2 ^ 32 := fun n => Nat.mod_lt _ (by decide)
  cases i <;>
    simp only [readOperands, Instr.wellFormed, Bool.and_eq_true, fitsRow_iff, fitsLong_iff, fieldLong_eq, fieldRA_eq, fieldRB_eq,
      fieldRC_eq, hrow, hlong, and_self]

/-- A word with the command's opcode and nothing above the operand fields is the encoding of the operands it holds. -/
theorem encode_readOperands {w : Word} {i : Instr} (hop : opcodeOf w = opcodeNumber i)
    (hw : w.toNat < 2 ^ operandEnd (formatOf i)) : encode (readOperands w i) = w := by
  have hmod := congrArg BitVec.toNat hop
  rw [opcodeOf_toNat] at hmod
  refine BitVec.eq_of_toNat_eq ?_
  cases i <;> simp only [opcodeNumber] at hmod <;> simp only [formatOf, operandEnd] at hw <;>
    simp only [readOperands, encode, fieldLong_eq, fieldRA_eq, fieldRB_eq, fieldRC_eq, packN_toNat, packLong_toNat, packR1_toNat,
      packR2_toNat, packR3_toNat] <;> omega

/-! ### The statements -/

/-- Settles O1: the encoding has the command's opcode and passes its mask, and its fields are the operands. -/
theorem decodeOfEncodeIsIdentity : Obligations.DecodeOfEncodeIsIdentity := by
  intro i hi
  rw [decode_of_opcode (opcodeOf_encode i), decodeAs, if_pos ((and_mask_eq_opcode_iff _ _).mpr (encode_toNat_lt i)),
    readOperands_encode hi]

/-- Settles O2: the decoded command is the one whose operands are the word's fields. -/
theorem encodeOfDecodeIsIdentity : Obligations.EncodeOfDecodeIsIdentity := by
  intro w i hd
  have hop := opcodeOf_of_decode_ok hd
  rw [decode_of_opcode hop] at hd
  obtain ⟨hmask, hi⟩ := decodeAs_ok hd
  rw [hi]
  exact ⟨encode_readOperands hop ((and_mask_eq_opcode_iff _ _).mp hmask), readOperands_wellFormed w i⟩

/-- Settles O4: each word has its command's opcode, and the decoder computes. -/
theorem specCommandWordsDecode : Obligations.SpecCommandWordsDecode := by
  unfold Obligations.SpecCommandWordsDecode
  decide

end Sys2Proof.Laws
end

section
/-! Proofs about a command's life (60_exceptions.md R114 to R118, 10_state.md R18 to R36): when the checks of a command pass, which
fields its effect can write, and the statements that follow from these alone. -/

namespace Sys2Proof.Machine

open Sys2Proof.Claims

/-! ### When all checks pass (R116) -/

/-- A command's checks pass exactly when no row of the table of R116 fails. -/
theorem checks_pass_iff (s : State) (i : Instr) :
    firstFailure s (checksOf i s) = none ↔
      (usesConfiguration i = true → CfgOk s) ∧ (readsState i = true → s.sv = true) ∧
        (∀ r ∈ rowOperands s i, r < s.cfgRows.toNat) ∧ firstFailure s (boundChecks i) = none := by
  rw [checksOf_eq_table, firstFailure_guarded_append _ (cfgOk_fails_iff s),
    firstFailure_guarded_append _ (stateValid_fails_iff s), firstFailure_rowBelow_append]
  split_ifs with hcfg hstate hrow
  · simp [hcfg.1, hcfg.2]
  · simp [hstate.1, hstate.2]
  · obtain ⟨r, hr, hle⟩ := hrow
    refine iff_of_false id fun ⟨_, _, hrows, _⟩ => ?_
    exact absurd (hrows r hr) (by omega)
  · have cfg : usesConfiguration i = true → CfgOk s := fun hi => by_contra fun hc => hcfg ⟨hi, hc⟩
    have state : readsState i = true → s.sv = true := fun hi => by
      by_contra hv
      exact hstate ⟨hi, by simpa using hv⟩
    have rows : ∀ r ∈ rowOperands s i, r < s.cfgRows.toNat := fun r hr => by
      by_contra hle
      exact hrow ⟨r, hr, by omega⟩
    exact ⟨fun h => ⟨cfg, state, rows, h⟩, fun ⟨_, _, _, h⟩ => h⟩

/-- Two states in which every check passes alike fail the same check first. -/
theorem firstFailure_congr {s t : State} (h : ∀ c : Check, c.passes t = c.passes s) (cs : List Check) :
    firstFailure t cs = firstFailure s cs := by
  induction cs with
  | nil => rfl
  | cons c cs ih => simp only [firstFailure, h c, ih]

theorem failingCode_eq_none_iff (s : State) (i : Instr) :
    failingCode s i = none ↔ firstFailure s (checksOf i s) = none := by
  rw [failingCode_eq, Option.map_eq_none_iff]

/-- A command whose operands are in range completes with its whole effect, in a legal configuration with a valid state. -/
theorem exec_completes {s : State} {i : Instr} (hc : CfgOk s) (hv : s.sv = true)
    (hr : ∀ r ∈ rowOperands s i, r < s.cfgRows.toNat) (hb : firstFailure s (boundChecks i) = none) :
    exec i s = .next (effectOf i s).complete :=
  exec_of_passes ((checks_pass_iff s i).mpr ⟨fun _ => hc, fun _ => hv, hr, hb⟩)

/-! ### The effect of each command, one equation per command -/

section
variable (s : State)

@[simp] theorem effectOf_nop : effectOf .nop s = s := rfl

@[simp] theorem effectOf_init : effectOf .init s = { s with sponge := initSponge, sv := true } := rfl

@[simp] theorem effectOf_perm12 : effectOf .perm12 s = { s with sponge := permuteFull s.sponge } := rfl

@[simp] theorem effectOf_perm1 : effectOf .perm1 s = { s with sponge := spongeRound s.sponge } := rfl

@[simp] theorem effectOf_absorb8 (addr : Nat) :
    effectOf (.absorb8 addr) s =
      { s with sponge := permuteFull (absorbLanes 8 s.sponge (blockAt s.draws s.mem addr)) } := rfl

@[simp] theorem effectOf_absorb12 (ra : Nat) :
    effectOf (.absorb12 ra) s =
      { s with sponge := permuteFull (absorbLanes 12 s.sponge (blockAt s.draws s.mem (matrixAddr s.cols ra 0 0))) } := rfl

@[simp] theorem effectOf_squeeze (len : Nat) :
    effectOf (.squeeze len) s =
      { s with
        sponge := (squeezeChunks (len / 96) (s.sponge, s.out)).1
        out := copyOut (squeezeChunks (len / 96) (s.sponge, s.out)).1 (squeezeChunks (len / 96) (s.sponge, s.out)).2
          (96 * (len / 96)) (len % 96)
        outLen := BitVec.ofNat 64 len } := rfl

@[simp] theorem effectOf_sqzrow0 (ra : Nat) :
    effectOf (.sqzrow0 ra) s = s.onDatapath (columnLoop (sqzrow0Column s.cols ra) s.cols) := rfl

@[simp] theorem effectOf_duprow1 (ra rb : Nat) :
    effectOf (.duprow1 ra rb) s = s.onDatapath (columnLoop (duprow1Column s.draws s.cols ra rb) s.cols) := rfl

@[simp] theorem effectOf_dupsetup (ra rb rc : Nat) :
    effectOf (.dupsetup ra rb rc) s = s.onDatapath (columnLoop (dupsetupColumn s.draws s.cols ra rb rc) s.cols) := rfl

@[simp] theorem effectOf_duprow (ra rb rc : Nat) :
    effectOf (.duprow ra rb rc) s = s.onDatapath (columnLoop (duprowColumn s.draws s.cols ra rb rc) s.cols) := rfl

@[simp] theorem effectOf_selrow : effectOf .selrow s = { s with agRowa := BitVec.ofNat 64 (selectedRow s) } := rfl

@[simp] theorem effectOf_agsinit :
    effectOf .agsinit s = { s with agRow := 2, agPrev := 1, agRowa := 0, agStep := 1, agWindow := 2, agGap := 1 } := rfl

/-- The six registers of the Setup schedule after one iteration, in both step orders (R109). -/
theorem advanceSetup_registers :
    advanceSetup s = { s with
      agRowa := (s.agRowa + s.agStep) &&& (s.agWindow - 1)
      agPrev := s.agRow
      agRow := s.agRow + 1
      agStep := if (s.agRowa + s.agStep) &&& (s.agWindow - 1) = 0
        then (if s.stepOrder = .ref then s.agWindow + s.agGap else 2 * s.agWindow + s.agGap) else s.agStep
      agWindow := if (s.agRowa + s.agStep) &&& (s.agWindow - 1) = 0 then 2 * s.agWindow else s.agWindow
      agGap := if (s.agRowa + s.agStep) &&& (s.agWindow - 1) = 0 then -s.agGap else s.agGap } := by
  unfold advanceSetup
  by_cases hwrap : (s.agRowa + s.agStep) &&& (s.agWindow - 1) = 0
  · simp only [if_pos hwrap]
    cases horder : s.stepOrder <;> simp
  · simp only [if_neg hwrap]

/-- AGSSTEP is DUPSETUP on the scheduled rows, then the six registers from their values at the start (R109). -/
@[simp] theorem effectOf_agsstep :
    effectOf .agsstep s =
      { effectOf (.dupsetup s.agPrev.toNat s.agRowa.toNat s.agRow.toNat) s with
        agRowa := (s.agRowa + s.agStep) &&& (s.agWindow - 1)
        agPrev := s.agRow
        agRow := s.agRow + 1
        agStep := if (s.agRowa + s.agStep) &&& (s.agWindow - 1) = 0
          then (if s.stepOrder = .ref then s.agWindow + s.agGap else 2 * s.agWindow + s.agGap) else s.agStep
        agWindow := if (s.agRowa + s.agStep) &&& (s.agWindow - 1) = 0 then 2 * s.agWindow else s.agWindow
        agGap := if (s.agRowa + s.agStep) &&& (s.agWindow - 1) = 0 then -s.agGap else s.agGap } :=
  advanceSetup_registers _

@[simp] theorem effectOf_agwinit (tau : Nat) :
    effectOf (.agwinit tau) s =
      { s with
        agRow := 0
        agBigstep := if tau % 2 = 1 then BitVec.ofNat 64 (s.rows / 2 - 1) else 0xFFFFFFFFFFFFFFFF } := rfl

/-- AGWSTEP is DUPROW on the selected row, then the selection and the signed step (R112). -/
@[simp] theorem effectOf_agwstep :
    effectOf .agwstep s =
      { effectOf (.duprow s.agPrev.toNat (selectedRow s) s.agRow.toNat) s with
        agRowa := BitVec.ofNat 64 (selectedRow s)
        agPrev := s.agRow
        agRow := BitVec.ofNat 64 (wanderedRow s) } := by
  simp only [effectOf, advanceWandering, duprowBody, State.onDatapath, selectRow]
  rfl

end

/-! ### Which fields an effect can write -/

section
variable (i : Instr) (s : State)

@[simp] theorem effectOf_cfgRows : (effectOf i s).cfgRows = s.cfgRows := by cases i <;> simp
@[simp] theorem effectOf_cfgCols : (effectOf i s).cfgCols = s.cfgCols := by cases i <;> simp
@[simp] theorem effectOf_ieDone : (effectOf i s).ieDone = s.ieDone := by cases i <;> simp
@[simp] theorem effectOf_ieErr : (effectOf i s).ieErr = s.ieErr := by cases i <;> simp
@[simp] theorem effectOf_err : (effectOf i s).err = s.err := by cases i <;> simp
@[simp] theorem effectOf_errCode : (effectOf i s).errCode = s.errCode := by cases i <;> simp
@[simp] theorem effectOf_errInfo : (effectOf i s).errInfo = s.errInfo := by cases i <;> simp
@[simp] theorem effectOf_drop : (effectOf i s).drop = s.drop := by cases i <;> simp
@[simp] theorem effectOf_cmd : (effectOf i s).cmd = s.cmd := by cases i <;> simp
@[simp] theorem effectOf_memWords : (effectOf i s).memWords = s.memWords := by cases i <;> simp
@[simp] theorem effectOf_outCap : (effectOf i s).outCap = s.outCap := by cases i <;> simp
@[simp] theorem effectOf_stepOrder : (effectOf i s).stepOrder = s.stepOrder := by cases i <;> simp
@[simp] theorem effectOf_rdata : (effectOf i s).rdata = s.rdata := by cases i <;> simp

end

section
variable {i : Instr} {s : State}

/-- Only INIT writes `SV` (R18). -/
theorem effectOf_sv (h : i ≠ .init) : (effectOf i s).sv = s.sv := by
  cases i with
  | init => exact absurd rfl h
  | _ => simp

theorem writer_of_agRow (h : (effectOf i s).agRow ≠ s.agRow) :
    i = .agsinit ∨ i = .agsstep ∨ (∃ tau, i = .agwinit tau) ∨ i = .agwstep := by
  cases i with
  | agsinit | agsstep | agwinit | agwstep => simp
  | _ => simp at h

theorem writer_of_agPrev (h : (effectOf i s).agPrev ≠ s.agPrev) : i = .agsinit ∨ i = .agsstep ∨ i = .agwstep := by
  cases i with
  | agsinit | agsstep | agwstep => simp
  | _ => simp at h

theorem writer_of_agRowa (h : (effectOf i s).agRowa ≠ s.agRowa) :
    i = .agsinit ∨ i = .agsstep ∨ i = .selrow ∨ i = .agwstep := by
  cases i with
  | agsinit | agsstep | selrow | agwstep => simp
  | _ => simp at h

theorem writer_of_schedule (h : (effectOf i s).agStep ≠ s.agStep ∨ (effectOf i s).agWindow ≠ s.agWindow ∨
    (effectOf i s).agGap ≠ s.agGap) : i = .agsinit ∨ i = .agsstep := by
  cases i with
  | agsinit | agsstep => simp
  | _ => simp at h

theorem writer_of_agBigstep (h : (effectOf i s).agBigstep ≠ s.agBigstep) : ∃ tau, i = .agwinit tau := by
  cases i with
  | agwinit tau => exact ⟨tau, rfl⟩
  | _ => simp at h

theorem writer_of_output (h : (effectOf i s).outLen ≠ s.outLen ∨ (effectOf i s).out ≠ s.out) : ∃ len, i = .squeeze len := by
  cases i with
  | squeeze len => exact ⟨len, rfl⟩
  | _ => simp at h

end

/-! ### When the engine moves -/

theorem step_of_no_event {s : State} (h : s.events = []) : step s = engineStep s := by
  simp [step, blockStep, h]

theorem step_engineTurn {s : State} {es : List Event} (h : s.events = .engineTurn :: es) :
    step s = engineStep { s with events := es } := by
  simp [step, blockStep, h]

theorem step_hardwareReset {s : State} {es : List Event} (h : s.events = .hardwareReset :: es) :
    step s = .next (State.hardReset { s with events := es }) := by
  simp [step, blockStep, h]

/-- An access that is not held is performed at once. -/
theorem step_access_of_not_held {s : State} {a : Access} {es : List Event} (h : ¬(s.busy = true ∧ a.passesHold = false))
    (he : s.events = .access a :: es) : step s = .next (State.performAccess a { s with events := es }) := by
  have hgo : (s.busy && !a.passesHold) = false := by simpa using h
  simp [step, blockStep, he, hgo]

/-- A read of `STATUS` or of `ID` is performed whatever the engine does (R64). -/
theorem step_access_of_passes {s : State} {a : Access} {es : List Event} (ha : a.passesHold = true)
    (he : s.events = .access a :: es) : step s = .next (State.performAccess a { s with events := es }) :=
  step_access_of_not_held (fun hheld => absurd (ha.symm.trans hheld.2) (by decide)) he

theorem State.busy_of_inflight {s : State} {w : Word} (h : s.inflight = some w) : s.busy = true := by
  simp [State.busy, h]

/-- A write to `CTRL` soft resets the engine or sets the two enables (R25, R139). -/
theorem State.writeCtrl_of_srst (s : State) {v : Word} (h : v.getLsbD 2 = true) : s.writeCtrl v = s.softReset :=
  if_pos h

theorem State.writeCtrl_of_not_srst (s : State) {v : Word} (h : v.getLsbD 2 = false) :
    s.writeCtrl v = { s with ieDone := v.getLsbD 0, ieErr := v.getLsbD 1 } :=
  if_neg (Bool.eq_false_iff.mp h)

/-! ### Which accesses write `SV` (R18, R19) -/

theorem csrAt_eq_some {n : Nat} {r : Csr} (h : csrAt n = some r) : n = r.offset := by
  unfold csrAt at h
  split at h <;> cases h <;> rfl

/-- A register stands at its own offset only (R23). -/
theorem State.offset_of_region {s : State} {h : HAddr} {r : Csr} (hr : s.region h = .csr r) : h.toNat = r.offset := by
  simp only [State.region, regionOf] at hr
  split at hr
  · split at hr
    · rename_i hr'
      obtain rfl := Region.csr.inj hr
      exact csrAt_eq_some hr'
    · cases hr
  · repeat' split at hr
    all_goals cases hr

theorem State.issue_sv (s : State) (w : Word) : (s.issue w).sv = s.sv := by
  unfold State.issue
  split <;> rfl

theorem State.writeCsr_sv (s : State) (v : Word) {r : Csr} (h : r ≠ .ctrl) : (s.writeCsr v r).sv = s.sv := by
  cases r with
  | ctrl => exact absurd rfl h
  | status => simp only [State.writeCsr, State.writeStatus_eq]
  | cmd => exact s.issue_sv v
  | _ => rfl

/-- The one access that can change `SV` is a write of `SRST` to `CTRL`. -/
theorem softReset_of_access_sv {s : State} {a : Access} (hne : (s.performAccess a).sv ≠ s.sv) :
    ∃ h v, a = .write h v ∧ h = 0x00000001 ∧ v.getLsbD 2 = true ∧ s.performAccess a = s.softReset := by
  cases a with
  | read h => exact absurd rfl hne
  | write h v =>
    simp only [State.performAccess, State.busWrite] at hne ⊢
    cases hr : s.region h with
    | csr r =>
      rw [hr, State.writeRegion] at hne
      obtain rfl : r = .ctrl := by_contra fun hctrl => hne (s.writeCsr_sv v hctrl)
      have haddr : h = 0x00000001 := BitVec.eq_of_toNat_eq (State.offset_of_region hr)
      rw [State.writeCsr] at hne
      cases hv : v.getLsbD 2 with
      | true => exact ⟨h, v, rfl, haddr, hv, s.writeCtrl_of_srst hv⟩
      | false =>
        rw [s.writeCtrl_of_not_srst hv] at hne
        exact absurd rfl hne
    | stateWord | outWord | matrixWord | reserved =>
      rw [hr] at hne
      exact absurd rfl hne

/-! ### The statements -/

/-- Settles O5: each of the three ways the engine moves is `engineStep`, and that runs the decoded command. -/
theorem stepRunsDecodedCommand : Obligations.StepRunsDecodedCommand := by
  refine fun s w i hw hd => ⟨fun he => ?noEvent, fun es he => ?turn, fun a es he ha => ?held⟩
  case noEvent => rw [step_of_no_event he, engineStep_of_decode_ok hw hd]
  case turn => exact (step_engineTurn he).trans (engineStep_of_decode_ok (s := { s with events := es }) hw hd)
  case held => rw [step_access_of_held (State.busy_of_inflight hw) ha he, engineStep_of_decode_ok hw hd]

/-- Settles O6: a word of no row does not decode, and the engine rejects it with the code of R120. -/
theorem illegalWordIsRejected : Obligations.IllegalWordIsRejected := by
  intro s w hw hno
  obtain ⟨e, hd⟩ := Laws.decoderFollowsMaskTable.2.2 w hno
  rw [engineStep_of_decode_error hw hd, State.reject_eq_of_inflight hw]
  rfl

/-- Settles O11: NOP has no check and no effect. -/
theorem nopOnlyCompletes : Obligations.NopOnlyCompletes :=
  fun _ => exec_of_passes rfl

/-- Settles O33: completion touches no error field, and a rejection nothing but the error fields. -/
theorem everyCommandCompletesOrIsRejected : Obligations.EveryCommandCompletesOrIsRejected := by
  intro s i
  rw [failingCode_eq_none_iff, Ne, failingCode_eq_none_iff]
  cases hf : firstFailure s (checksOf i s) with
  | none => exact ⟨_, exec_of_passes hf, rfl, fun _ => by simp, fun h => absurd rfl h⟩
  | some e => exact ⟨_, exec_of_fails hf, rfl, fun h => (Option.some_ne_none e h).elim, fun _ => by simp⟩

/-- Settles O34: the engine's own step always answers, and so do an access and a reset. -/
theorem stepAlwaysAnswers : Obligations.StepAlwaysAnswers := by
  intro s
  unfold step blockStep
  split
  · exact engineStep_answers _
  · exact engineStep_answers _
  · exact ⟨_, rfl⟩
  · split
    · exact engineStep_answers _
    · exact ⟨_, rfl⟩

/-- Settles O38: a rejection writes none of these registers, and a completed command only those its effect writes. -/
theorem registersWrittenOnlyByTheirCommands : Obligations.RegistersWrittenOnlyByTheirCommands := by
  intro s t i he
  obtain ⟨-, rfl⟩ | ⟨e, -, rfl⟩ := exec_cases he
  · exact ⟨writer_of_agRow, writer_of_agPrev, writer_of_agRowa, writer_of_schedule, writer_of_agBigstep, writer_of_output,
      by simp, by simp [effectOf_events]⟩
  · simp

/-- Settles O37: of the commands only INIT writes `SV`, a hardware reset clears it, and of the accesses only the soft reset does. -/
theorem onlyInitAndResetsChangeStateValid : Obligations.OnlyInitAndResetsChangeStateValid := by
  intro s t hs hne
  obtain ⟨es, hes, he⟩ | ⟨es, hes, rfl⟩ | ⟨a, es, hes, -, rfl⟩ := step_cases hs
  case inl =>
    refine .inl ?_
    obtain ⟨-, rfl⟩ | ⟨w, i, hw, hd, hx⟩ | ⟨w, e, -, -, rfl⟩ := engineStep_cases he
    · exact absurd rfl hne
    · obtain ⟨-, rfl⟩ | ⟨e, -, rfl⟩ := exec_cases hx
      · obtain rfl : i = .init := by_contra fun hi => hne (effectOf_sv hi)
        exact ⟨rfl, w, hw, hd⟩
      · exact absurd rfl hne
    · exact absurd rfl hne
  case inr.inl => exact .inr ⟨rfl, _, es, hes, .inl rfl⟩
  case inr.inr =>
    obtain ⟨h, v, ha, haddr, hv, hreset⟩ := softReset_of_access_sv (s := { s with events := es }) hne
    exact .inr ⟨hreset ▸ rfl, _, es, hes, .inr ⟨h, v, by rw [ha], haddr, hv⟩⟩

end Sys2Proof.Machine
end

section
/-! Proofs of the family 40_permutation.md: the permutations are bijections (R88), and the four commands of the permutation engine
(R91 to R93). One mixing step can be undone line by line, from the last word it writes to the first. -/

namespace Sys2Proof.Machine

/-! ### Rotations can be undone (R11, R88) -/

/-- The source's law: a rotation by `n` and one by `64 - n` make a whole turn. -/
theorem rotateRight_rotateRight_sub (x : Word) {n : Nat} (h0 : 1 ≤ n) (h63 : n ≤ 63) :
    (x.rotateRight n).rotateRight (64 - n) = x := by
  refine BitVec.eq_of_getLsbD_eq fun i hi => ?_
  simp only [BitVec.getLsbD_rotateRight, Nat.mod_eq_of_lt (show n < 64 by omega), Nat.mod_eq_of_lt (show 64 - n < 64 by omega)]
  by_cases hlow : i < n
  · simp [show i < 64 - (64 - n) by omega, show ¬64 - n + i < 64 - n by omega, show 64 - n + i < 64 by omega]
  · simp [show ¬i < 64 - (64 - n) by omega, show i - (64 - (64 - n)) < 64 - n by omega, hi,
      show n + (i - (64 - (64 - n))) = i by omega]

theorem rotr_rotr_sub (x : Word) {n : Nat} (h0 : 1 ≤ n) (h63 : n ≤ 63) : rotr (rotr x n) (64 - n) = x := by
  rw [rotr_eq_rotateRight _ (by omega), rotr_eq_rotateRight _ (by omega), rotateRight_rotateRight_sub x h0 h63]

theorem rotateRight_injective {n : Nat} (h0 : 1 ≤ n) (h63 : n ≤ 63) :
    Function.Injective fun x : Word => x.rotateRight n :=
  Function.LeftInverse.injective (g := fun x : Word => x.rotateRight (64 - n)) fun x => rotateRight_rotateRight_sub x h0 h63

/-! ### The mixing operation is a bijection (R88) -/

theorem Sponge.ext_words {S T : Sponge} (h : ∀ j : Fin 16, S[j] = T[j]) : S = T :=
  Vector.ext fun k hk => h ⟨k, hk⟩

section
variable {a b c d : Fin 16} (hab : a ≠ b) (hac : a ≠ c) (had : a ≠ d) (hbc : b ≠ c) (hbd : b ≠ d) (hcd : c ≠ d)
include hab hac had hbc hbd hcd

/-- The four lines determine the words they were given: `b`, then `c`, then `d`, then `a`. -/
theorem mixHalf_injective {p q : Nat} (hp0 : 1 ≤ p) (hp : p ≤ 63) (hq0 : 1 ≤ q) (hq : q ≤ 63) :
    Function.Injective fun S => mixHalf p q S a b c d := by
  intro S T h
  have hget : ∀ j : Fin 16, (mixHalf p q S a b c d)[j] = (mixHalf p q T a b c d)[j] := fun j => congrArg (·[j]) h
  obtain ⟨hSa, hSb, hSc, hSd⟩ :=
    mixHalf_get (S := S) hab hac had hbc hbd hcd (p := p) (q := q) (by omega) (by omega) rfl rfl rfl rfl
  obtain ⟨hTa, hTb, hTc, hTd⟩ :=
    mixHalf_get (S := T) hab hac had hbc hbd hcd (p := p) (q := q) (by omega) (by omega) rfl rfl rfl rfl
  have ea := hSa.symm.trans ((hget a).trans hTa)
  have eb := hSb.symm.trans ((hget b).trans hTb)
  have ec := hSc.symm.trans ((hget c).trans hTc)
  have ed := hSd.symm.trans ((hget d).trans hTd)
  rw [ec] at eb
  rw [ed] at ec
  rw [ea] at ed
  have sb : S[b] = T[b] := (BitVec.xor_left_inj _).mp (rotateRight_injective hq0 hq eb)
  have sc : S[c] = T[c] := (BitVec.add_left_inj _).mp ec
  have sd : S[d] = T[d] := (BitVec.xor_left_inj _).mp (rotateRight_injective hp0 hp ed)
  have sa : S[a] = T[a] := by
    rw [sb] at ea
    exact (BitVec.add_left_inj _).mp ea
  refine Sponge.ext_words fun j => ?_
  by_cases hja : j = a
  · rw [hja, sa]
  by_cases hjb : j = b
  · rw [hjb, sb]
  by_cases hjc : j = c
  · rw [hjc, sc]
  by_cases hjd : j = d
  · rw [hjd, sd]
  rw [← mixHalf_get_of_ne hja hjb hjc hjd, hget, mixHalf_get_of_ne hja hjb hjc hjd]

theorem mix_injective : Function.Injective fun S => mix S a b c d := by
  simp only [mix_eq_mixHalf_mixHalf]
  exact (mixHalf_injective hab hac had hbc hbd hcd (by decide) (by decide) (by decide) (by decide)).comp
    (mixHalf_injective hab hac had hbc hbd hcd (by decide) (by decide) (by decide) (by decide))

end

/-! ### The permutations (R86 to R88) -/

theorem finite_sponge : Finite Sponge :=
  Finite.of_injective (fun (S : Sponge) (i : Fin 16) => S[i].toFin) fun S T h =>
    Sponge.ext_words fun j => BitVec.eq_of_toFin_eq (congrFun h j)

theorem spongeRound_injective : Function.Injective spongeRound := by
  intro S T h
  unfold spongeRound at h
  iterate 8 replace h := mix_injective (by decide) (by decide) (by decide) (by decide) (by decide) (by decide) h
  exact h

theorem spongeRound_bijective : Function.Bijective spongeRound :=
  have := finite_sponge
  Finite.injective_iff_bijective.mp spongeRound_injective

theorem permuteFull_bijective : Function.Bijective permuteFull := by
  rw [show permuteFull = spongeRound^[12] from funext permuteFull_eq_iterate_spongeRound]
  exact spongeRound_bijective.iterate 12

/-- The mixing operation takes four zero words to four zero words. -/
theorem mix_zero (a b c d : Fin 16) : mix (Vector.replicate 16 0) a b c d = Vector.replicate 16 0 := by
  simp [mix, rotr]

theorem spongeRound_zero : spongeRound (Vector.replicate 16 0) = Vector.replicate 16 0 := by
  simp only [spongeRound, mix_zero]

theorem permuteFull_zero : permuteFull (Vector.replicate 16 0) = Vector.replicate 16 0 := by
  rw [permuteFull_eq_iterate_spongeRound]
  exact Function.iterate_fixed spongeRound_zero 12

theorem eq_zero_of_words {S : Sponge} (h : ∀ j : Fin 16, S[j] = 0) : S = Vector.replicate 16 0 :=
  Sponge.ext_words fun j => (h j).trans (by simp)

/-! ### The commands of the permutation engine (R91 to R93) -/

/-- A command whose operands fit has one word (R71, R72). -/
theorem decode_eq_ok_iff (w : Word) {i : Instr} (hi : i.wellFormed = true) : decode w = .ok i ↔ w = encode i := by
  constructor
  · intro hd
    exact (Laws.encodeOfDecodeIsIdentity w i hd).1.symm
  · rintro rfl
    exact Laws.decodeOfEncodeIsIdentity i hi

theorem firstFailure_stateValid {s : State} (h : s.sv = true) : firstFailure s [.stateValid] = none := by
  simp [firstFailure, Check.passes, h]

theorem exec_perm12 {s : State} (h : s.sv = true) :
    exec .perm12 s = .next { s with
      sponge := permuteFull s.sponge, inflight := none, done := true, draws := s.draws + 1 } := by
  rw [exec_of_passes (i := .perm12) (firstFailure_stateValid h), effectOf_perm12, State.complete]

theorem exec_perm1 {s : State} (h : s.sv = true) :
    exec .perm1 s = .next { s with
      sponge := spongeRound s.sponge, inflight := none, done := true, draws := s.draws + 1 } := by
  rw [exec_of_passes (i := .perm1) (firstFailure_stateValid h), effectOf_perm1, State.complete]

/-- With `SV = 0` a command whose first check is check 3 is rejected with code 3 (R122). -/
theorem exec_of_not_sv {s : State} {w : Word} {i : Instr} (hw : s.inflight = some w) (hv : s.sv = false)
    (hi : checksOf i s = [.stateValid]) :
    exec i s = .next { s with err := true, errCode := 3, errInfo := w, inflight := none } := by
  rw [exec_of_fails (e := .noState) (by rw [hi]; exact firstFailure_cons_of_fails [] hv), State.reject_eq_of_inflight hw]
  rfl

/-- Any number of PERM1 but none: the rounds one after another, and completion. -/
theorem execAll_perm1 (n : Nat) {s : State} (h : s.sv = true) :
    execAll (List.replicate (n + 1) .perm1) s = some { s with
      sponge := spongeRound^[n + 1] s.sponge, inflight := none, done := true, draws := s.draws + (n + 1) } := by
  induction n generalizing s with
  | zero =>
    simp only [List.replicate, execAll, exec_perm1 h]
    rfl
  | succ n ih =>
    rw [List.replicate_succ, execAll, exec_perm1 h]
    simp only [ih (s := { s with sponge := spongeRound s.sponge, inflight := none, done := true, draws := s.draws + 1 }) h,
      ← Function.iterate_succ_apply, Nat.add_assoc, Nat.add_comm 1]

/-! ### The statements -/

/-- Settles O10: the round is injective on a finite set, the full permutation iterates it, and four zero words mix to zero. -/
theorem permutationLaws : Obligations.PermutationLaws := by
  refine ⟨⟨spongeRound_bijective, spongeRound_bijective, permuteFull_bijective⟩, fun S hS => ?zero,
    fun x n h0 h63 => rotr_rotr_sub x h0 h63⟩
  case zero =>
    rw [eq_zero_of_words hS]
    exact ⟨spongeRound_zero, spongeRound_zero, permuteFull_zero⟩

/-- Settles O12: INIT has one word, no check, and writes the state words and `SV`. -/
theorem initLoadsTheState : Obligations.InitLoadsTheState :=
  ⟨fun w => decode_eq_ok_iff w rfl, fun _ => exec_of_passes rfl⟩

/-- Settles O13: PERM12's one word, its completion and rejection, the fixed zero state, and the worked example by evaluation. -/
theorem perm12PermutesTheState : Obligations.Perm12PermutesTheState :=
  ⟨fun w => decode_eq_ok_iff w rfl, fun _ hv => exec_perm12 hv, fun _ _ hw hv => exec_of_not_sv hw hv rfl, permuteFull_zero,
    by decide +kernel⟩

/-- Settles O14: as for PERM12, and twelve rounds one at a time are the full permutation. -/
theorem perm1PermutesTheState : Obligations.Perm1PermutesTheState := by
  refine ⟨fun w => decode_eq_ok_iff w rfl, fun _ hv => exec_perm1 hv, fun _ _ hw hv => exec_of_not_sv hw hv rfl,
    fun s hv => ?twelve, spongeRound_zero, by decide +kernel⟩
  case twelve =>
    refine ⟨_, _, execAll_perm1 11 hv, exec_perm12 hv, ?_⟩
    rw [permuteFull_eq_iterate_spongeRound]

end Sys2Proof.Machine
end

section
/-! Proofs of the family 41_absorb_squeeze.md: the commands of the absorb/squeeze controller (R94 to R96). -/

namespace Sys2Proof.Machine

open Sys2Proof.Claims

/-! ### The bounds of an address and of a length (R124, R125) -/

theorem addrInside_passes_iff (s : State) (addr : Nat) :
    firstFailure s (boundChecks (.absorb8 addr)) = none ↔ addr + 8 ≤ s.cfgRows.toNat * s.cfgCols.toNat * 12 := by
  rw [boundChecks, firstFailure_cons (addrInside_fails_iff s addr), firstFailure]
  simp

theorem lenFits_passes_iff (s : State) (len : Nat) :
    firstFailure s (boundChecks (.squeeze len)) = none ↔ len ≤ s.outCap := by
  rw [boundChecks, firstFailure_cons (lenFits_fails_iff s len), firstFailure]
  simp

/-! ### Absorbing a block (R94, R95, R101) -/

theorem absorbed_absorbLanes (n : Nat) (S : Sponge) (B : Nat → Word) : Absorbed n S B (absorbLanes n S B) :=
  fun j => absorbLanes_get n S B j

/-! ### The output of a squeeze (R96) -/

/-- What SQUEEZE leaves in `OUT` below its length, in the complete chunks and in the incomplete last one. -/
theorem byte?_effectOf_squeeze (s : State) (len k : Nat) :
    (effectOf (.squeeze len) s).out.byte? k =
      if k < len then some (spongeByte (permuteFull^[k / 96] s.sponge) (k % 96)) else s.out.byte? k := by
  rw [effectOf_squeeze, byte?_copyOut, byte?_squeezeChunks, squeezeChunks_sponge]
  by_cases hlast : 96 * (len / 96) ≤ k ∧ k < 96 * (len / 96) + len % 96
  · have hdiv : k / 96 = len / 96 := by omega
    have hmod : k - 96 * (len / 96) = k % 96 := by omega
    rw [if_pos hlast, if_pos (show k < len by omega), hdiv, hmod]
  · rw [if_neg hlast]
    by_cases hk : k < len
    · rw [if_pos hk, if_pos (show k < 96 * (len / 96) by omega)]
    · rw [if_neg hk, if_neg (show ¬k < 96 * (len / 96) by omega)]

theorem exec_squeeze {s : State} {len : Nat} (hv : s.sv = true) (hl : len ≤ s.outCap) :
    exec (.squeeze len) s = .next (effectOf (.squeeze len) s).complete :=
  exec_of_passes ((checks_pass_iff s (.squeeze len)).mpr
    ⟨fun h => absurd h Bool.false_ne_true, fun _ => hv, fun _ h => absurd h List.not_mem_nil, (lenFits_passes_iff s len).mpr hl⟩)

/-! ### The statements -/

/-- Settles O15: the eight words are XORed in by `absorbLanes`, and the whole effect is on `S`. -/
theorem absorb8Result : Obligations.Absorb8Result := by
  intro s addr hc hv ha
  refine ⟨absorbLanes 8 s.sponge (blockAt s.draws s.mem addr), absorbed_absorbLanes _ _ _, ?_⟩
  rw [exec_completes hc hv (fun _ h => absurd h List.not_mem_nil) ((addrInside_passes_iff s addr).mpr ha),
    effectOf_absorb8, State.complete]

/-- Settles O16: as for ABSORB8, with the block at column 0 of the row. -/
theorem absorb12Result : Obligations.Absorb12Result := by
  intro s ra hc hv hr
  refine ⟨absorbLanes 12 s.sponge (blockAt s.draws s.mem (matrixAddr s.cols ra 0 0)), absorbed_absorbLanes _ _ _, ?_⟩
  rw [exec_completes (i := .absorb12 ra) hc hv (List.forall_mem_singleton.mpr hr) rfl, effectOf_absorb12, State.complete]

/-- Settles O17: the bytes are those of `byte?_effectOf_squeeze`, the state that of the complete chunks. -/
theorem squeezeResult : Obligations.SqueezeResult := by
  intro s len hv hl
  refine ⟨(effectOf (.squeeze len) s).out, ?_, fun k hk => ?below, fun k hk => ?above⟩
  · rw [exec_squeeze hv hl, effectOf_squeeze, State.complete, squeezeChunks_sponge]
  case below =>
    rw [byte?_effectOf_squeeze, if_pos hk, spongeByte, Nat.mod_mod_of_dvd k (by decide)]
  case above => rw [byte?_effectOf_squeeze, if_neg (by omega)]

/-- Settles O18: below both lengths the byte of `squeezeResult` does not mention the length. -/
theorem squeezePrefixesAgree : Obligations.SqueezePrefixesAgree := by
  intro s t t' len len' hv hl hl' ht ht' k hk hk'
  rw [exec_squeeze hv hl] at ht
  rw [exec_squeeze hv hl'] at ht'
  obtain rfl := Host.Outcome.next.inj ht
  obtain rfl := Host.Outcome.next.inj ht'
  rw [State.complete_out, State.complete_out, byte?_effectOf_squeeze, byte?_effectOf_squeeze, if_pos hk, if_pos hk']

end Sys2Proof.Machine
end

section
/-! Proofs of the family 42_row_ops.md: the row commands column by column (R97 to R106). The states and memories between the columns
are those of the column loop, cut short after `i` columns; what one column does is said by the lemmas of Laws/RowOps.lean. -/

namespace Sys2Proof.Machine

open Sys2Proof.Claims

/-! ### What a column absorbs (R101) -/

/-- The matrix block that a column absorbs, word by word. -/
theorem absorbed_block (key : Nat) (m : Memory) (S : Sponge) (cols r c : Nat) :
    Absorbed 12 S (fun j => memRead key m (matrixAddr cols r c j)) (absorbLanes 12 S (blockAt key m (matrixAddr cols r c 0))) := by
  intro j
  rw [absorbLanes_get, blockAt_matrixAddr]

/-- The lane-wise sum of two matrix blocks that a duplex column absorbs, word by word. -/
theorem absorbed_sum (key : Nat) (m : Memory) (S : Sponge) (cols ra rb c : Nat) :
    Absorbed 12 S (fun j => memRead key m (matrixAddr cols ra c j) + memRead key m (matrixAddr cols rb c j))
      (absorbLanes 12 S fun j => blockAt key m (matrixAddr cols ra c 0) j + blockAt key m (matrixAddr cols rb c 0) j) := by
  intro j
  rw [absorbLanes_get, blockAt_matrixAddr, blockAt_matrixAddr]

theorem absorbed_congr {n : Nat} {S x : Sponge} {B B' : Nat → Word} (hB : ∀ j < n, B j = B' j) (hx : Absorbed n S B x) :
    Absorbed n S B' x := by
  intro j
  rw [hx j]
  by_cases hj : j.val < n
  · rw [if_pos hj, if_pos hj, hB _ hj]
  · rw [if_neg hj, if_neg hj]

theorem duprowColumn_sponge (key cols ra rb rc i : Nat) (d : Datapath) :
    (duprowColumn key cols ra rb rc i d).sponge =
      spongeRound (absorbLanes 12 d.sponge fun j =>
        blockAt key d.mem (matrixAddr cols ra i 0) j + blockAt key d.mem (matrixAddr cols rb i 0) j) :=
  rfl

/-! ### Words of other blocks -/

/-- A word of one block has no byte in another block. -/
theorem word_notInBlock {cols r r' c c' j a : Nat} (hc : c < cols) (hc' : c' < cols) (hj : j < 12) (h : ¬(r = r' ∧ c = c'))
    (ha : a / 8 = matrixAddr cols r c j) : ¬∃ w < 12, a / 8 = matrixAddr cols r' c' w := by
  rintro ⟨w, hw, e⟩
  obtain ⟨hr, hcol, -⟩ := matrixAddr_injective hc hc' hj hw (ha.symm.trans e)
  exact h ⟨hr, hcol⟩

/-! ### SQZROW0 (R102) -/

/-- After `n` columns of SQZROW0 the state has had `n` rounds, and the mirrored columns hold the states before their rounds. -/
theorem sqzrow0_columns (key cols ra : Nat) (d : Datapath) {n : Nat} (hn : n ≤ cols) :
    (columnLoop (sqzrow0Column cols ra) n d).sponge = spongeRound^[n] d.sponge ∧
      ∀ i < n, ∀ j < 12, memRead key (columnLoop (sqzrow0Column cols ra) n d).mem (matrixAddr cols ra (cols - 1 - i) j) =
        lane (spongeRound^[i] d.sponge) j := by
  induction n with
  | zero => exact ⟨rfl, fun i hi => absurd hi (Nat.not_lt_zero i)⟩
  | succ n ih =>
    obtain ⟨hsponge, hwords⟩ := ih (by omega)
    refine ⟨?_, fun i hi j hj => ?_⟩
    · rw [columnLoop, sqzrow0Column, permuteReduced_eq, hsponge, Function.iterate_succ_apply']
    · rw [columnLoop]
      rcases Nat.lt_succ_iff_lt_or_eq.mp hi with hlt | rfl
      · rw [← hwords i hlt j hj]
        exact memRead_congr fun a ha =>
          sqzrow0Column_outside _ _ _ _ (word_notInBlock (by omega) (by omega) hj (by omega) ha)
      · rw [sqzrow0Column_word _ _ _ _ _ hj, hsponge]

theorem sqzrow0_outside (cols ra : Nat) (d : Datapath) {a : Nat} (h : ∀ c < cols, ¬∃ w < 12, a / 8 = matrixAddr cols ra c w) :
    (columnLoop (sqzrow0Column cols ra) cols d).mem.byte? a = d.mem.byte? a :=
  columnLoop_induct (fun _ e => e.mem.byte? a = d.mem.byte? a) rfl cols fun i e hi he =>
    (sqzrow0Column_outside cols ra i e (h _ (by omega))).trans he

/-! ### DUPROW between its columns (R105) -/

section
variable (key' key cols ra rb rc : Nat) (d : Datapath)

/-- A column of DUPROW leaves the words of every other column alone. -/
theorem duprowColumn_otherColumn {i c r j : Nat} (hi : i < cols) (hc : c < cols) (hne : c ≠ i) (hj : j < 12) :
    memRead key' (duprowColumn key cols ra rb rc i d).mem (matrixAddr cols r c j) =
      memRead key' d.mem (matrixAddr cols r c j) :=
  memRead_congr fun _ ha => duprowColumn_outside _ _ _ _ _ _ _
    (word_notInBlock hc hi hj (fun h => hne h.2) ha) (word_notInBlock hc hi hj (fun h => hne h.2) ha)

/-- Before its iteration a column is as the command found it. -/
theorem duprow_column_before {c r j n : Nat} (hn : n ≤ c) (hc : c < cols) (hj : j < 12) :
    memRead key' (columnLoop (duprowColumn key cols ra rb rc) n d).mem (matrixAddr cols r c j) =
      memRead key' d.mem (matrixAddr cols r c j) := by
  induction n with
  | zero => rfl
  | succ n ih =>
    rw [columnLoop, duprowColumn_otherColumn _ _ _ _ _ _ _ (by omega) hc (by omega) hj, ih (by omega)]

/-- After its iteration a column stays as the iteration left it. -/
theorem duprow_column_after {c r j n : Nat} (hc : c + 1 ≤ n) (hn : n ≤ cols) (hj : j < 12) :
    memRead key' (columnLoop (duprowColumn key cols ra rb rc) n d).mem (matrixAddr cols r c j) =
      memRead key' (columnLoop (duprowColumn key cols ra rb rc) (c + 1) d).mem (matrixAddr cols r c j) := by
  induction n, hc using Nat.le_induction with
  | base => rfl
  | succ n hle ih =>
    rw [columnLoop, duprowColumn_otherColumn _ _ _ _ _ _ _ (by omega) (by omega) (by omega) hj, ih (by omega)]

/-- Every column absorbs the sum of its two blocks as the command found them. -/
theorem duprow_absorbs {i : Nat} (hi : i < cols) :
    ∃ x, Absorbed 12 (columnLoop (duprowColumn key cols ra rb rc) i d).sponge
        (fun j => memRead key d.mem (matrixAddr cols ra i j) + memRead key d.mem (matrixAddr cols rb i j)) x ∧
      (columnLoop (duprowColumn key cols ra rb rc) (i + 1) d).sponge = spongeRound x := by
  refine ⟨_, absorbed_congr (fun j hj => ?_) (absorbed_sum key _ _ cols ra rb i), duprowColumn_sponge _ _ _ _ _ _ _⟩
  rw [duprow_column_before key key cols ra rb rc d (Nat.le_refl i) hi hj,
    duprow_column_before key key cols ra rb rc d (Nat.le_refl i) hi hj]

end

/-! ### Completion of a row command (R98, R118) -/

/-- A row command whose effect is a column loop leaves the state and the memory after its last column, and nothing else. -/
theorem exec_columns {s : State} {i : Instr} {step : Nat → Datapath → Datapath} (hc : CfgOk s) (hv : s.sv = true)
    (hr : ∀ r ∈ rowOperands s i, r < s.cfgRows.toNat) (hb : boundChecks i = [])
    (he : effectOf i s = s.onDatapath (columnLoop step s.cols)) :
    exec i s = .next { s with
      sponge := (columnLoop step s.cfgCols.toNat ⟨s.sponge, s.mem⟩).sponge
      mem := (columnLoop step s.cfgCols.toNat ⟨s.sponge, s.mem⟩).mem
      inflight := none, done := true, draws := s.draws + 1 } := by
  rw [exec_completes hc hv hr (hb ▸ rfl), he, State.complete, State.onDatapath, State.cols]

theorem exec_duprow {s : State} {ra rb rc : Nat} (hc : CfgOk s) (hv : s.sv = true) (ha : ra < s.cfgRows.toNat)
    (hb : rb < s.cfgRows.toNat) (hrc : rc < s.cfgRows.toNat) :
    exec (.duprow ra rb rc) s = .next { s with
      sponge := (columnLoop (duprowColumn s.draws s.cols ra rb rc) s.cfgCols.toNat ⟨s.sponge, s.mem⟩).sponge
      mem := (columnLoop (duprowColumn s.draws s.cols ra rb rc) s.cfgCols.toNat ⟨s.sponge, s.mem⟩).mem
      inflight := none, done := true, draws := s.draws + 1 } :=
  exec_columns hc hv (by simp [rowOperands, ha, hb, hrc]) rfl (effectOf_duprow s ra rb rc)

/-! ### The statements -/

/-- Settles O19: by induction over the columns, `sqzrow0_columns`. -/
theorem sqzrow0Result : Obligations.Sqzrow0Result := by
  intro s ra hc hv hr
  refine ⟨(columnLoop (sqzrow0Column s.cols ra) s.cols ⟨s.sponge, s.mem⟩).mem, ?_,
    fun key => (sqzrow0_columns key s.cols ra ⟨s.sponge, s.mem⟩ (Nat.le_refl _)).2,
    fun a ha => sqzrow0_outside s.cols ra ⟨s.sponge, s.mem⟩ ha⟩
  rw [exec_columns (i := .sqzrow0 ra) hc hv (List.forall_mem_singleton.mpr hr) rfl (effectOf_sqzrow0 s ra), State.cols,
    (sqzrow0_columns 0 s.cfgCols.toNat ra ⟨s.sponge, s.mem⟩ (Nat.le_refl _)).1]

/-- Settles O20: the states and memories between the columns are those of the column loop. -/
theorem duprow1Result : Obligations.Duprow1Result := by
  intro s ra rb hc hv ha hb
  refine ⟨fun n => (columnLoop (duprow1Column s.draws s.cols ra rb) n ⟨s.sponge, s.mem⟩).sponge,
    fun n => (columnLoop (duprow1Column s.draws s.cols ra rb) n ⟨s.sponge, s.mem⟩).mem,
    exec_columns hc hv (by simp [rowOperands, ha, hb]) rfl (effectOf_duprow1 s ra rb), rfl, rfl,
    fun i hi => ⟨⟨_, absorbed_block _ _ _ _ _ _, rfl⟩, ?stores, ?others⟩⟩
  case stores => exact fun key j hj => duprow1Column_word key _ _ _ _ _ _ hj
  case others => exact fun a hout => duprow1Column_outside _ _ _ _ _ _ hout

/-- Settles O21: as for DUPROW1, with the three rows of one column of DUPSETUP. -/
theorem dupsetupResult : Obligations.DupsetupResult := by
  intro s ra rb rc hc hv ha hb hrc
  refine ⟨fun n => (columnLoop (dupsetupColumn s.draws s.cols ra rb rc) n ⟨s.sponge, s.mem⟩).sponge,
    fun n => (columnLoop (dupsetupColumn s.draws s.cols ra rb rc) n ⟨s.sponge, s.mem⟩).mem,
    exec_columns hc hv (by simp [rowOperands, ha, hb, hrc]) rfl (effectOf_dupsetup s ra rb rc), rfl, rfl,
    fun i hi => ⟨⟨_, absorbed_sum _ _ _ _ _ _ _, rfl⟩, ?rand, ?out, ?others⟩⟩
  case rand => exact fun key p hp => dupsetupColumn_rand key _ _ _ _ _ _ _ hi hp
  case out => exact fun hne key j hj => dupsetupColumn_out key _ _ _ _ _ _ _ hi hne hj
  case others => exact fun a hout hrand => dupsetupColumn_outside _ _ _ _ _ _ _ hout hrand

/-- Settles O22: as for DUPSETUP, with one column of DUPROW. -/
theorem duprowResult : Obligations.DuprowResult := by
  intro s ra rb rc hc hv ha hb hrc
  refine ⟨fun n => (columnLoop (duprowColumn s.draws s.cols ra rb rc) n ⟨s.sponge, s.mem⟩).sponge,
    fun n => (columnLoop (duprowColumn s.draws s.cols ra rb rc) n ⟨s.sponge, s.mem⟩).mem,
    exec_duprow hc hv ha hb hrc, rfl, rfl, fun i hi => ⟨⟨_, absorbed_sum _ _ _ _ _ _ _, rfl⟩, ?rand, ?out, ?others⟩⟩
  case rand => exact fun key p hp => duprowColumn_rand key _ _ _ _ _ _ _ hi hp
  case out => exact fun hne key j hj => duprowColumn_out key _ _ _ _ _ _ _ hi hne hj
  case others => exact fun a hout hrand => duprowColumn_outside _ _ _ _ _ _ _ hout hrand

/-- Settles O23: a column of DUPROW is as the command found it before its iteration, and stays as that iteration left it. -/
theorem duprowAliasedRows : Obligations.DuprowAliasedRows := by
  intro s t ra rb rc hc hv ha hb hrc ht
  obtain rfl := Host.Outcome.next.inj ((exec_duprow hc hv ha hb hrc).symm.trans ht)
  refine ⟨fun n => (columnLoop (duprowColumn s.draws s.cols ra rb rc) n ⟨s.sponge, s.mem⟩).sponge, rfl, rfl, fun i hi => ?_⟩
  have hcol : i < s.cols := hi
  have found : ∀ key r, ∀ j < 12,
      memRead key (columnLoop (duprowColumn s.draws s.cols ra rb rc) i ⟨s.sponge, s.mem⟩).mem (matrixAddr s.cols r i j) =
        memRead key s.mem (matrixAddr s.cols r i j) :=
    fun key r j hj => duprow_column_before key s.draws s.cols ra rb rc ⟨s.sponge, s.mem⟩ (Nat.le_refl i) hi hj
  have left : ∀ key r, ∀ j < 12,
      memRead key (columnLoop (duprowColumn s.draws s.cols ra rb rc) s.cols ⟨s.sponge, s.mem⟩).mem (matrixAddr s.cols r i j) =
        memRead key (columnLoop (duprowColumn s.draws s.cols ra rb rc) (i + 1) ⟨s.sponge, s.mem⟩).mem
          (matrixAddr s.cols r i j) :=
    fun key r j hj => duprow_column_after key s.draws s.cols ra rb rc ⟨s.sponge, s.mem⟩ hi (Nat.le_refl _) hj
  have absorbs := duprow_absorbs s.draws s.cols ra rb rc ⟨s.sponge, s.mem⟩ hcol
  refine ⟨absorbs, fun halias key p hp => ?outIsRand, fun halias => ?prevIsRand, fun halias hne key j hj => ?prevIsOut⟩
  case outIsRand =>
    refine (left key rb p hp).trans ?_
    rw [columnLoop, duprowColumn_rand _ _ _ _ _ _ _ _ hcol hp, if_pos halias, found _ _ _ hp]
    rfl
  case prevIsRand =>
    subst halias
    obtain ⟨x, hx, hround⟩ := absorbs
    exact ⟨x, absorbed_congr (fun j _ => BitVec.two_mul.symm) hx, hround⟩
  case prevIsOut =>
    subst halias
    refine (left key ra j hj).trans ?_
    rw [columnLoop, duprowColumn_out _ _ _ _ _ _ _ _ hcol (Ne.symm hne) hj, found _ _ _ hj]
    rfl

end Sys2Proof.Machine
end

section
/-! Proofs of the family 43_row_addressing.md: the row selector and the two schedules (R107 to R113). The Setup loop goes through
windows of `2 ^ n` rows, in each of which the revisited row is an odd multiple of the place in the window; the Wandering loop adds
one fixed residue modulo `ROWS`. -/

namespace Sys2Proof.Machine

open Sys2Proof.Claims

/-! ### The selected row and the signed step (R107, R112) -/

theorem CfgOk.rows_pos {s : State} (h : CfgOk s) : 0 < s.cfgRows.toNat := by
  obtain ⟨h3, -⟩ := h
  omega

theorem CfgOk.rows_le {s : State} (h : CfgOk s) : s.cfgRows.toNat ≤ 65536 := by
  obtain ⟨-, hle, -⟩ := h
  exact hle

theorem selectedRow_eq (s : State) : selectedRow s = s.sponge[0].toNat % s.cfgRows.toNat := by
  rw [selectedRow, lane_lt _ (by decide), State.rows]

/-- The exact sum with the signed big step, reduced to `[0, ROWS)`. -/
theorem wanderedRow_spec {s : State} (h : 0 < s.cfgRows.toNat) :
    (wanderedRow s : Int) = ((s.agRow.toNat : Int) + s.agBigstep.toInt) % (s.cfgRows.toNat : Int) ∧
      wanderedRow s < s.cfgRows.toNat := by
  have hpos : (0 : Int) < (s.cfgRows.toNat : Int) := by exact_mod_cast h
  have hcast : (wanderedRow s : Int) = ((s.agRow.toNat : Int) + s.agBigstep.toInt) % (s.cfgRows.toNat : Int) :=
    Int.toNat_of_nonneg (Int.emod_nonneg _ hpos.ne')
  exact ⟨hcast, by exact_mod_cast hcast ▸ Int.emod_lt_of_pos _ hpos⟩

/-! ### A step of each loop -/

theorem exec_agsstep {s : State} (hc : CfgOk s) (hv : s.sv = true) (hp : s.agPrev.toNat < s.cfgRows.toNat)
    (ha : s.agRowa.toNat < s.cfgRows.toNat) (hr : s.agRow.toNat < s.cfgRows.toNat) :
    exec .agsstep s = .next (effectOf .agsstep s).complete :=
  exec_completes hc hv (by simp [rowOperands, hp, ha, hr]) rfl

theorem exec_agwstep {s : State} (hc : CfgOk s) (hv : s.sv = true) (hp : s.agPrev.toNat < s.cfgRows.toNat)
    (hr : s.agRow.toNat < s.cfgRows.toNat) : exec .agwstep s = .next (effectOf .agwstep s).complete :=
  exec_completes hc hv (by simp [rowOperands, hp, hr]) rfl

/-! ### Runs of commands -/

theorem execAll_append_one {is : List Instr} {i : Instr} {s t u : State} (h : execAll is s = some t)
    (he : exec i t = .next u) : execAll (is ++ [i]) s = some u := by
  induction is generalizing s with
  | nil =>
    obtain rfl := Option.some.inj h
    simp [execAll, he]
  | cons j is ih =>
    rw [execAll] at h
    rw [List.cons_append, execAll]
    cases hj : exec j s with
    | next s' =>
      rw [hj] at h
      exact ih h
    | fault e | refused e =>
      rw [hj] at h
      cases h

/-! ### The Setup schedule (R109, R110) -/

/-- The registers of the Setup schedule at place `j` of the window of `2 ^ n` rows. -/
structure SetupPlace (s : State) (n j : Nat) : Prop where
  n_pos : 1 ≤ n
  j_lt : j < 2 ^ n
  row : s.agRow.toNat = 2 ^ n + j
  prev : s.agPrev.toNat + 1 = 2 ^ n + j
  window : s.agWindow.toNat = 2 ^ n
  gap : s.agGap = 1 ∨ s.agGap = -1
  step_odd : s.agStep.toNat % 2 = 1
  rowa : s.agRowa.toNat = s.agStep.toNat * j % 2 ^ n

/-- Masking with a window of `2 ^ n` rows reduces modulo `2 ^ n`. -/
theorem toNat_and_window {w : Word} {n : Nat} (hw : w.toNat = 2 ^ n) (x : Word) : (x &&& (w - 1)).toNat = x.toNat % 2 ^ n := by
  have hpos : 0 < 2 ^ n := Nat.two_pow_pos n
  have hsub : (w - 1).toNat = 2 ^ n - 1 := by
    rw [BitVec.toNat_sub_of_le (by rw [BitVec.le_def, hw]; exact hpos), hw]
    rfl
  rw [BitVec.toNat_and, hsub, Nat.and_two_pow_sub_one_eq_mod]

/-- An odd multiple of a place comes back to 0 modulo the window only after the whole window. -/
theorem odd_mul_mod_two_pow_eq_zero {a j n : Nat} (ha : a % 2 = 1) (hj : j < 2 ^ n) :
    a * (j + 1) % 2 ^ n = 0 ↔ j + 1 = 2 ^ n := by
  have hcop : Nat.Coprime (2 ^ n) a := Nat.Coprime.pow_left n (Nat.coprime_two_left.mpr (Nat.odd_iff.mpr ha))
  rw [← Nat.dvd_iff_mod_eq_zero, hcop.dvd_mul_left]
  constructor
  · intro hdvd
    have hle := Nat.le_of_dvd (Nat.succ_pos j) hdvd
    omega
  · intro h
    rw [h]

theorem toNat_add_one {x : Word} (h : x.toNat < 65536) : (x + 1).toNat = x.toNat + 1 := by
  rw [BitVec.toNat_add]
  exact Nat.mod_eq_of_lt (show x.toNat + 1 < 2 ^ 64 by omega)

/-- An even word and a gap of `+1` or `-1` make an odd step. -/
theorem toNat_add_gap_odd {w g : Word} (hw : w.toNat % 2 = 0) (hg : g = 1 ∨ g = -1) : (w + g).toNat % 2 = 1 := by
  have godd : g.toNat % 2 = 1 := by rcases hg with rfl | rfl <;> rfl
  rw [BitVec.toNat_add]
  omega

section
variable {s : State} {n j : Nat} (h : SetupPlace s n j)
include h

theorem SetupPlace.rowa_lt : s.agRowa.toNat < 2 ^ n := by
  rw [h.rowa]
  exact Nat.mod_lt _ (Nat.two_pow_pos n)

/-- The revisited row lies before the new row, and is not the row just written. -/
theorem SetupPlace.rowa_ne_prev : s.agRowa ≠ s.agPrev := by
  intro he
  have hprev := h.prev
  have hlt := h.rowa_lt
  have hrowa := h.rowa
  have hwindow : 2 ≤ 2 ^ n := Nat.le_self_pow (by have := h.n_pos; omega) 2
  rw [he] at hlt hrowa
  obtain rfl : j = 0 := by omega
  rw [Nat.mul_zero, Nat.zero_mod] at hrowa
  omega

theorem SetupPlace.next_rowa : ((s.agRowa + s.agStep) &&& (s.agWindow - 1)).toNat = s.agStep.toNat * (j + 1) % 2 ^ n := by
  have hn : n ≤ 64 := by
    have hlt := h.window ▸ s.agWindow.isLt
    exact Nat.le_of_lt ((Nat.pow_lt_pow_iff_right (by decide)).mp hlt)
  rw [toNat_and_window h.window, BitVec.toNat_add, Nat.mod_mod_of_dvd _ (Nat.pow_dvd_pow 2 hn), h.rowa, Nat.mod_add_mod,
    Nat.mul_succ]

/-- The revisited row wraps to 0 exactly at the end of the window. -/
theorem SetupPlace.wraps_iff : (s.agRowa + s.agStep) &&& (s.agWindow - 1) = 0 ↔ j + 1 = 2 ^ n := by
  rw [← odd_mul_mod_two_pow_eq_zero h.step_odd h.j_lt, ← h.next_rowa]
  exact BitVec.toNat_inj.symm

variable (hr : s.agRow.toNat < 65536)
include hr

theorem SetupPlace.next_row :
    (effectOf .agsstep s).agRow.toNat = 2 ^ n + j + 1 ∧ (effectOf .agsstep s).agPrev.toNat = 2 ^ n + j := by
  rw [effectOf_agsstep]
  exact ⟨(toNat_add_one hr).trans (congrArg (· + 1) h.row), h.row⟩

/-- Inside a window AGSSTEP goes to the next place. -/
theorem SetupPlace.next_place (hj : j + 1 < 2 ^ n) : SetupPlace (effectOf .agsstep s) n (j + 1) := by
  obtain ⟨hrow, hprev⟩ := h.next_row hr
  have hnowrap : ¬(s.agRowa + s.agStep) &&& (s.agWindow - 1) = 0 := fun hz => absurd (h.wraps_iff.mp hz) (by omega)
  refine ⟨h.n_pos, hj, by omega, by omega, ?_, ?_, ?_, ?_⟩
  · simpa only [effectOf_agsstep, if_neg hnowrap] using h.window
  · simpa only [effectOf_agsstep, if_neg hnowrap] using h.gap
  · simpa only [effectOf_agsstep, if_neg hnowrap] using h.step_odd
  · simpa only [effectOf_agsstep, if_neg hnowrap] using h.next_rowa

/-- At the end of a window AGSSTEP goes to the first place of the next window, twice as large, with a new odd step. -/
theorem SetupPlace.next_window (hj : j + 1 = 2 ^ n) : SetupPlace (effectOf .agsstep s) (n + 1) 0 := by
  obtain ⟨hrow, hprev⟩ := h.next_row hr
  have hwrap := h.wraps_iff.mpr hj
  have hplaceRow := h.row
  have hwindow := h.window
  have hgap := h.gap
  have hdouble : (2 * s.agWindow).toNat = 2 * 2 ^ n := by
    have hmul : (2 * s.agWindow).toNat = 2 * s.agWindow.toNat % 2 ^ 64 := BitVec.toNat_mul _ _
    omega
  have heven : 2 ^ n = 2 * 2 ^ (n - 1) := by rw [← Nat.pow_succ', Nat.succ_eq_add_one, Nat.sub_add_cancel h.n_pos]
  have hpow : 2 ^ (n + 1) = 2 * 2 ^ n := Nat.pow_succ'
  refine ⟨by omega, Nat.two_pow_pos _, by omega, by omega, ?_, ?_, ?_, ?_⟩
  · simpa only [effectOf_agsstep, if_pos hwrap, hpow] using hdouble
  · simp only [effectOf_agsstep, if_pos hwrap]
    rcases hgap with e | e <;> rw [e] <;> decide
  · simp only [effectOf_agsstep, if_pos hwrap]
    split
    · exact toNat_add_gap_odd (by omega) hgap
    · exact toNat_add_gap_odd (by omega) hgap
  · rw [Nat.mul_zero, Nat.zero_mod, effectOf_agsstep]
    exact congrArg BitVec.toNat hwrap

/-- One AGSSTEP goes one place further, counted over the windows. -/
theorem SetupPlace.next : ∃ n' j', SetupPlace (effectOf .agsstep s) n' j' ∧ 2 ^ n' + j' = 2 ^ n + j + 1 := by
  have hj := h.j_lt
  by_cases hwrap : j + 1 = 2 ^ n
  · exact ⟨n + 1, 0, h.next_window hr hwrap, by rw [Nat.pow_succ']; omega⟩
  · exact ⟨n, j + 1, h.next_place hr (by omega), rfl⟩

end

/-! ### Runs without an error -/

/-- What a run from `s` without an error keeps: `ROWS`, a legal configuration, a valid state and `ERR = 0`. -/
structure ErrorFree (s t : State) : Prop where
  rows : t.cfgRows = s.cfgRows
  cfg : CfgOk t
  valid : t.sv = true
  noErr : t.err = false

/-- A completed command other than INIT keeps a run free of errors. -/
theorem ErrorFree.next {s t : State} {i : Instr} (h : ErrorFree s t) (hi : i ≠ .init) :
    ErrorFree s (effectOf i t).complete where
  rows := by simp [h.rows]
  cfg := by simpa [CfgOk] using h.cfg
  valid := (effectOf_sv hi).trans h.valid
  noErr := by simp [h.noErr]

/-! ### The Setup loop (R110) -/

/-- AGSINIT goes to the first place of the window of two rows (R108). -/
theorem setupPlace_agsinit (s : State) : SetupPlace (effectOf .agsinit s).complete 1 0 where
  n_pos := by decide
  j_lt := by decide
  row := rfl
  prev := rfl
  window := rfl
  gap := .inl rfl
  step_odd := rfl
  rowa := rfl

/-- The registers of the schedule are all that a place speaks of. -/
theorem SetupPlace.complete {s : State} {n j : Nat} (h : SetupPlace s n j) : SetupPlace s.complete n j :=
  ⟨h.n_pos, h.j_lt, h.row, h.prev, h.window, h.gap, h.step_odd, h.rowa⟩

/-- `k` AGSSTEPs after AGSINIT, none rejected, lead to place `k` counted over the windows. -/
theorem setup_run {s : State} (hc : CfgOk s) (hv : s.sv = true) (he : s.err = false) (k : Nat)
    (hk : k ≤ s.cfgRows.toNat - 2) :
    ∃ t, execAll (.agsinit :: List.replicate k .agsstep) s = some t ∧ ErrorFree s t ∧ t.done = true ∧
      ∃ n j, SetupPlace t n j ∧ 2 ^ n + j = 2 + k := by
  induction k with
  | zero =>
    refine ⟨(effectOf .agsinit s).complete, ?_, ⟨rfl, hc, hv, he⟩, rfl, 1, 0, setupPlace_agsinit s, rfl⟩
    rw [List.replicate_zero, execAll, exec_of_passes (i := .agsinit) rfl]
    rfl
  | succ k ih =>
    obtain ⟨t, ht, hrun, -, n, j, hplace, hcount⟩ := ih (by omega)
    have hplaceRow := hplace.row
    have hplacePrev := hplace.prev
    have hplaceRowa := hplace.rowa_lt
    have hrow : t.agRow.toNat < t.cfgRows.toNat := by
      rw [hrun.rows]
      omega
    have hstep := exec_agsstep hrun.cfg hrun.valid (by omega) (by omega) hrow
    obtain ⟨n', j', hplace', hcount'⟩ := hplace.next (Nat.lt_of_lt_of_le hrow (CfgOk.rows_le hrun.cfg))
    refine ⟨_, ?_, hrun.next (by decide), rfl, n', j', hplace'.complete, by omega⟩
    rw [List.replicate_succ', ← List.cons_append]
    exact execAll_append_one ht hstep

/-! ### The Wandering pass (R112, R113) -/

/-- `n` AGWSTEPs from `AG_ROW = 0`, none rejected, lead to `n * b mod ROWS`. -/
theorem wandering_run {s : State} (hc : CfgOk s) (hv : s.sv = true) (he : s.err = false) (h0 : s.agRow = 0)
    (hp : s.agPrev.toNat < s.cfgRows.toNat) {b : Nat} (hb : (b : Int) = s.agBigstep.toInt % (s.cfgRows.toNat : Int)) (n : Nat) :
    ∃ t, execAll (List.replicate n .agwstep) s = some t ∧ ErrorFree s t ∧ t.agBigstep = s.agBigstep ∧
      t.agPrev.toNat < s.cfgRows.toNat ∧ t.agRow.toNat = n * b % s.cfgRows.toNat := by
  have hpos := CfgOk.rows_pos hc
  induction n with
  | zero => exact ⟨s, rfl, ⟨rfl, hc, hv, he⟩, rfl, hp, by rw [h0, Nat.zero_mul, Nat.zero_mod]; rfl⟩
  | succ n ih =>
    obtain ⟨t, ht, hrun, hbig, htp, hrow⟩ := ih
    have hlt : t.agRow.toNat < s.cfgRows.toNat := hrow ▸ Nat.mod_lt _ hpos
    have hstep := exec_agwstep hrun.cfg hrun.valid (hrun.rows ▸ htp) (hrun.rows ▸ hlt)
    obtain ⟨hsum, hbound⟩ := wanderedRow_spec (CfgOk.rows_pos hrun.cfg)
    have hnext : wanderedRow t = (n + 1) * b % s.cfgRows.toNat := by
      have hmod : s.agBigstep.toInt ≡ b [ZMOD s.cfgRows.toNat] := hb ▸ (Int.mod_modEq _ _).symm
      have hadd : (n * b : Int) % s.cfgRows.toNat + s.agBigstep.toInt ≡ n * b + b [ZMOD s.cfgRows.toNat] :=
        (Int.mod_modEq _ _).add hmod
      have hcast : (wanderedRow t : Int) = (((n + 1) * b % s.cfgRows.toNat : Nat) : Int) := by
        rw [hsum, hrow, hbig, hrun.rows]
        push_cast
        rw [add_one_mul]
        exact hadd
      exact_mod_cast hcast
    have hfits : wanderedRow t < 2 ^ 64 := Nat.lt_trans hbound t.cfgRows.isLt
    refine ⟨_, by rw [List.replicate_succ']; exact execAll_append_one ht hstep, hrun.next (by decide), ?_, ?_, ?_⟩
    · simpa using hbig
    · simpa using hlt
    · rw [State.complete_agRow, effectOf_agwstep, BitVec.toNat_ofNat, Nat.mod_eq_of_lt hfits, hnext]

/-- `n` steps of `b` come back to 0 modulo `R` exactly after the multiples of `R / gcd b R`. -/
theorem mul_mod_eq_zero_iff_gcd {R b : Nat} (hR : 0 < R) (n : Nat) : n * b % R = 0 ↔ R / Nat.gcd b R ∣ n := by
  constructor
  · intro h
    have hmod : n * b ≡ 0 * b [MOD R] := by rw [Nat.zero_mul]; exact h
    rw [Nat.gcd_comm]
    exact (Nat.modEq_zero_iff_dvd).mp (hmod.cancel_right_div_gcd hR)
  · intro h
    have hdvd := Nat.mul_dvd_mul h (Nat.gcd_dvd_left b R)
    rw [Nat.div_mul_cancel (Nat.gcd_dvd_right b R)] at hdvd
    exact Nat.mod_eq_zero_of_dvd hdvd

/-- The multiples of `b` reach every residue modulo `R` exactly when `b` is prime to `R`. -/
theorem multiples_reach_all_iff {R b : Nat} (hR : 1 < R) :
    (∀ r < R, ∃ n < R / Nat.gcd b R, n * b % R = r) ↔ Nat.gcd b R = 1 := by
  constructor
  · intro h
    obtain ⟨n, -, hn⟩ := h 1 hR
    refine Nat.eq_one_of_dvd_one ?_
    rw [← hn, Nat.dvd_mod_iff (Nat.gcd_dvd_right b R)]
    exact Dvd.dvd.mul_left (Nat.gcd_dvd_left b R) n
  · intro hg r hr
    obtain ⟨m, -, hm⟩ := Nat.exists_mul_mod_eq_one_of_coprime hg hR
    refine ⟨r * m % R, by rw [hg, Nat.div_one]; exact Nat.mod_lt _ (by omega), ?_⟩
    rw [Nat.mod_mul_mod, Nat.mul_assoc, Nat.mul_comm m b, Nat.mul_mod, hm, Nat.mul_one, Nat.mod_mod, Nat.mod_eq_of_lt hr]

/-! ### The statements -/

/-- Settles O24: the selection is the unsigned remainder by `ROWS`, which is at least 3. -/
theorem selrowResult : Obligations.SelrowResult := by
  intro s hc hv
  refine ⟨Nat.mod_lt _ (CfgOk.rows_pos hc), ?_⟩
  rw [exec_completes (i := .selrow) hc hv (fun _ h => absurd h List.not_mem_nil) rfl, effectOf_selrow, State.complete,
    selectedRow_eq]

/-- Settles O25: AGSINIT has no check. -/
theorem agsinitResult : Obligations.AgsinitResult :=
  fun _ => exec_of_passes rfl

/-- Settles O26: the effect of AGSSTEP is written over that of DUPSETUP, which the same rows let complete. -/
theorem agsstepResult : Obligations.AgsstepResult := by
  intro s hc hv hp ha hr
  have hdupsetup : exec (.dupsetup s.agPrev.toNat s.agRowa.toNat s.agRow.toNat) s =
      .next (effectOf (.dupsetup s.agPrev.toNat s.agRowa.toNat s.agRow.toNat) s).complete :=
    exec_completes hc hv (by simp [rowOperands, hp, ha, hr]) rfl
  refine ⟨_, hdupsetup, rfl, by simp, ?_⟩
  rw [exec_agsstep hc hv hp ha hr, effectOf_agsstep, State.complete, State.complete]

/-- Settles O27: from `setup_run`, by what `SetupPlace` says of the registers. -/
theorem setupScheduleLaws : Obligations.SetupScheduleLaws := by
  intro s hc hv he k hk
  obtain ⟨t, ht, hrun, hdone, n, j, hplace, hcount⟩ := setup_run hc hv he k hk
  have hrow := hplace.row
  have hprev := hplace.prev
  have hrowa := hplace.rowa_lt
  refine ⟨t, ht, hrun.noErr, hdone, by omega, by omega, ⟨n, hplace.window⟩, hplace.gap,
    fun _ => ⟨by omega, hplace.rowa_ne_prev⟩, ?_⟩
  rw [State.sdone_iff, hrun.rows, hrow]
  obtain ⟨h3, -⟩ := hc
  omega

/-- Settles O28: AGWINIT checks the configuration only, and the parity of `TAU` chooses the big step. -/
theorem agwinitResult : Obligations.AgwinitResult := by
  intro s tau hc
  have hexec : exec (.agwinit tau) s = .next (effectOf (.agwinit tau) s).complete :=
    exec_of_passes ((checks_pass_iff s (.agwinit tau)).mpr
      ⟨fun _ => hc, fun h => absurd h Bool.false_ne_true, fun _ h => absurd h List.not_mem_nil, rfl⟩)
  rw [hexec, effectOf_agwinit, State.complete]
  refine ⟨fun hodd => ?_, fun heven => ?_⟩
  · rw [if_pos hodd, State.rows]
  · rw [if_neg (by omega)]

/-- Settles O29: as for AGSSTEP, over the effect of DUPROW on the selected row. -/
theorem agwstepResult : Obligations.AgwstepResult := by
  intro s hc hv hp hr
  have hpos := CfgOk.rows_pos hc
  obtain ⟨hsum, hbound⟩ := wanderedRow_spec hpos
  have hduprow : exec (.duprow s.agPrev.toNat (selectedRow s) s.agRow.toNat) s =
      .next (effectOf (.duprow s.agPrev.toNat (selectedRow s) s.agRow.toNat) s).complete :=
    exec_completes hc hv (by simp [rowOperands, hp, hr, selectedRow_eq, Nat.mod_lt _ hpos]) rfl
  rw [← selectedRow_eq]
  refine ⟨_, wanderedRow s, hduprow, rfl, by simp, hsum, hbound, ?_⟩
  rw [exec_agwstep hc hv hp hr, effectOf_agwstep, State.complete, State.complete]

/-- Settles O30: from `wandering_run`; when a multiple of `b` is 0 and which residues they reach is arithmetic modulo `ROWS`. -/
theorem wanderingPassLength : Obligations.WanderingPassLength := by
  rintro s hc hv he h0 hp b g hb rfl
  have hrows : 1 < s.cfgRows.toNat := by
    obtain ⟨h3, -⟩ := hc
    omega
  refine ⟨fun n => ?_, multiples_reach_all_iff hrows⟩
  obtain ⟨t, ht, hrun, -, -, hrow⟩ := wandering_run hc hv he h0 hp hb n
  refine ⟨t, ht, hrun.noErr, hrow, ?_⟩
  rw [State.wzero_iff, ← mul_mod_eq_zero_iff_gcd (by omega), ← hrow]
  exact BitVec.toNat_inj.symm

end Sys2Proof.Machine
end

section
/-! Proofs of the family 20_memory.md about the matrix memory and the output buffer as commands use them (R48, R51). Every command
that writes `MEM` is one column loop, so each rule about it is proved of one column and carried over the columns: a column stays
inside the matrix, keeps the memory's form, and depends on the matrix only. -/

namespace Sys2Proof.Machine

open Sys2Proof.Claims

/-! ### The column loop of a command (R98, R109, R112) -/

/-- The row command a schedule step runs; any other command is itself. -/
def rowCommand (s : State) : Instr → Instr
  | .agsstep => .dupsetup s.agPrev.toNat s.agRowa.toNat s.agRow.toNat
  | .agwstep => .duprow s.agPrev.toNat (selectedRow s) s.agRow.toNat
  | i => i

/-- One column of a row command; the other commands have none. -/
def columnOf (key cols : Nat) : Instr → Nat → Datapath → Datapath
  | .sqzrow0 ra => sqzrow0Column cols ra
  | .duprow1 ra rb => duprow1Column key cols ra rb
  | .dupsetup ra rb rc => dupsetupColumn key cols ra rb rc
  | .duprow ra rb rc => duprowColumn key cols ra rb rc
  | _ => fun _ d => d

/-- The data path a command that writes `MEM` leaves. -/
def columnsOf (i : Instr) (s : State) : Datapath :=
  columnLoop (columnOf s.draws s.cols (rowCommand s i)) s.cols ⟨s.sponge, s.mem⟩

/-- The schedule registers as a command that writes `MEM` leaves them; only the two schedule steps write any (R109, R112). -/
def scheduled (i : Instr) (s : State) : State :=
  match i with
  | .agsstep => advanceSetup s
  | .agwstep =>
    { s with
      agRowa := BitVec.ofNat 64 (selectedRow s)
      agPrev := s.agRow
      agRow := BitVec.ofNat 64 (wanderedRow s) }
  | _ => s

/-- A command that writes `MEM` is its column loop, and the update of the schedule. -/
theorem effectOf_of_writesMatrix {i : Instr} (s : State) (h : writesMatrix i = true) :
    effectOf i s = { scheduled i s with sponge := (columnsOf i s).sponge, mem := (columnsOf i s).mem } := by
  cases i with
  | sqzrow0 | duprow1 | dupsetup | duprow => rfl
  | agsstep =>
    rw [effectOf_agsstep, scheduled, advanceSetup_registers]
    rfl
  | agwstep =>
    rw [effectOf_agwstep]
    rfl
  | _ => cases h

theorem effectOf_mem_of_writesMatrix {i : Instr} (s : State) (h : writesMatrix i = true) :
    (effectOf i s).mem = (columnsOf i s).mem := by
  rw [effectOf_of_writesMatrix s h]

theorem effectOf_mem_of_not_writesMatrix {i : Instr} (s : State) (h : writesMatrix i = false) : (effectOf i s).mem = s.mem := by
  cases i with
  | sqzrow0 | duprow1 | dupsetup | duprow | agsstep | agwstep => cases h
  | _ => simp

/-- When the checks of a command that writes `MEM` pass, the rows its columns work on are rows of the matrix. -/
theorem rowCommand_rows {i : Instr} {s : State} (hw : writesMatrix i = true) (hp : firstFailure s (checksOf i s) = none) :
    ∀ r ∈ rowOperands s (rowCommand s i), r < s.cfgRows.toNat := by
  obtain ⟨hcfg, -, hrows, -⟩ := (checks_pass_iff s i).mp hp
  cases i with
  | agwstep =>
    have hselected : selectedRow s < s.cfgRows.toNat := Nat.mod_lt _ (CfgOk.rows_pos (hcfg rfl))
    simp only [rowOperands, List.forall_mem_cons] at hrows
    obtain ⟨hprev, hrow, -⟩ := hrows
    simp [rowCommand, rowOperands, hprev, hrow, hselected]
  | sqzrow0 | duprow1 | dupsetup | duprow | agsstep => exact hrows
  | _ => cases hw

/-- A command that writes `MEM` has a legal configuration when its checks pass. -/
theorem cfgOk_of_writesMatrix {i : Instr} {s : State} (hw : writesMatrix i = true)
    (hp : firstFailure s (checksOf i s) = none) : CfgOk s := by
  obtain ⟨hcfg, -⟩ := (checks_pass_iff s i).mp hp
  refine hcfg ?_
  cases i with
  | sqzrow0 | duprow1 | dupsetup | duprow | agsstep | agwstep => rfl
  | _ => cases hw

/-! ### One column keeps the memory's form and stays inside the matrix -/

section
variable {s : State} {i : Instr} {rows cols c key : Nat} {d : Datapath} (hr : ∀ r ∈ rowOperands s i, r < rows) (hc : c < cols)
include hr hc

theorem columnOf_memOk {n : Nat} (hn : rows * cols * 12 ≤ n) (h : d.MemOk n) : (columnOf key cols i c d).MemOk n := by
  cases i with
  | sqzrow0 ra => exact sqzrow0Column_memOk (hr ra (by simp [rowOperands])) hc hn h
  | duprow1 ra rb => exact duprow1Column_memOk (hr rb (by simp [rowOperands])) hc hn h
  | dupsetup ra rb rc => exact dupsetupColumn_memOk (hr rb (by simp [rowOperands])) (hr rc (by simp [rowOperands])) hc hn h
  | duprow ra rb rc => exact duprowColumn_memOk (hr rb (by simp [rowOperands])) (hr rc (by simp [rowOperands])) hc hn h
  | _ => exact h

/-- A column writes no byte above the matrix. -/
theorem columnOf_above {a : Nat} (ha : 8 * (rows * cols * 12) ≤ a) : (columnOf key cols i c d).mem.byte? a = d.mem.byte? a := by
  have above : ∀ {r c'}, r < rows → c' < cols → ¬∃ w < 12, a / 8 = matrixAddr cols r c' w := by
    rintro r c' hrow hcol ⟨w, hw, e⟩
    have hlt := matrixAddr_lt hrow hcol hw
    omega
  have hmirror : cols - 1 - c < cols := by omega
  cases i with
  | sqzrow0 ra => exact sqzrow0Column_outside _ _ _ _ (above (hr ra (by simp [rowOperands])) hmirror)
  | duprow1 ra rb => exact duprow1Column_outside _ _ _ _ _ _ (above (hr rb (by simp [rowOperands])) hmirror)
  | dupsetup ra rb rc =>
    exact dupsetupColumn_outside _ _ _ _ _ _ _ (above (hr rc (by simp [rowOperands])) hmirror)
      (above (hr rb (by simp [rowOperands])) hc)
  | duprow ra rb rc =>
    exact duprowColumn_outside _ _ _ _ _ _ _ (above (hr rc (by simp [rowOperands])) hc)
      (above (hr rb (by simp [rowOperands])) hc)
  | _ => rfl

end

/-! ### Memories that agree below a word -/

/-- The memories hold the same bytes in the first `n` words. -/
def Memory.AgreeBelow (n : Nat) (m m' : Memory) : Prop := ∀ a < 8 * n, m'.byte? a = m.byte? a

/-- The data paths have the same state, and memories that agree in the first `n` words. -/
def Datapath.AgreeBelow (n : Nat) (d d' : Datapath) : Prop := d'.sponge = d.sponge ∧ d.mem.AgreeBelow n d'.mem

section
variable {n : Nat} {m m' : Memory} (h : m.AgreeBelow n m')
include h

theorem Memory.AgreeBelow.memRead_eq (key : Nat) {a : Nat} (ha : a < n) : memRead key m' a = memRead key m a :=
  memRead_congr fun _ hb => h _ (by omega)

theorem Memory.AgreeBelow.setWord (a : Nat) (v : Word) : (m.setWord a v).AgreeBelow n (m'.setWord a v) := by
  intro b hb
  rw [Memory.byte?_setWord, Memory.byte?_setWord, h b hb]

theorem Memory.AgreeBelow.storeWords {f f' : Nat → Word} (base : Nat) {k : Nat} (hf : ∀ j < k, f' j = f j) :
    (storeWords m base f k).AgreeBelow n (storeWords m' base f' k) := by
  induction k with
  | zero => exact h
  | succ k ih =>
    rw [Machine.storeWords, Machine.storeWords, hf k (Nat.lt_succ_self k)]
    exact (ih fun j hj => hf j (by omega)).setWord _ _

theorem Memory.AgreeBelow.xorWords (key : Nat) {f f' : Nat → Word} {base k : Nat} (hf : ∀ j < k, f' j = f j)
    (hb : base + k ≤ n) : (xorWords key m base f k).AgreeBelow n (xorWords key m' base f' k) := by
  induction k with
  | zero => exact h
  | succ k ih =>
    have hk := ih (fun j hj => hf j (by omega)) (by omega)
    simp only [Machine.xorWords]
    rw [hf k (Nat.lt_succ_self k), hk.memRead_eq key (by omega)]
    exact hk.setWord _ _

theorem Memory.AgreeBelow.blockAt_eq (key : Nat) {base k : Nat} (hb : base + k ≤ n) :
    ∀ j < k, blockAt key m' base j = blockAt key m base j :=
  fun _ _ => h.memRead_eq key (by omega)

end

theorem absorbLanes_congr {n : Nat} (S : Sponge) {B B' : Nat → Word} (h : ∀ j < n, B' j = B j) :
    absorbLanes n S B' = absorbLanes n S B := by
  refine Sponge.ext_words fun j => ?_
  rw [absorbLanes_get, absorbLanes_get]
  by_cases hj : j.val < n
  · rw [if_pos hj, if_pos hj, h _ hj]
  · rw [if_neg hj, if_neg hj]

/-! ### One column depends on the matrix only (R48) -/

section
variable {rows cols c key : Nat} {d d' : Datapath} (hc : c < cols) (h : d.AgreeBelow (rows * cols * 12) d')
include hc h

omit hc in
theorem sqzrow0Column_agree (ra : Nat) :
    (sqzrow0Column cols ra c d).AgreeBelow (rows * cols * 12) (sqzrow0Column cols ra c d') := by
  obtain ⟨hsponge, hmem⟩ := h
  refine ⟨by simp only [sqzrow0Column, hsponge], ?_⟩
  simp only [sqzrow0Column, hsponge]
  exact hmem.storeWords _ fun _ _ => rfl

theorem duprow1Column_agree {ra : Nat} (ha : ra < rows) (rb : Nat) :
    (duprow1Column key cols ra rb c d).AgreeBelow (rows * cols * 12) (duprow1Column key cols ra rb c d') := by
  obtain ⟨hsponge, hmem⟩ := h
  have hinput := hmem.blockAt_eq key (block_inside ha hc (Nat.le_refl _))
  have hround : permuteReduced (absorbLanes 12 d'.sponge (blockAt key d'.mem (matrixAddr cols ra c 0))) =
      permuteReduced (absorbLanes 12 d.sponge (blockAt key d.mem (matrixAddr cols ra c 0))) := by
    rw [hsponge, absorbLanes_congr _ hinput]
  refine ⟨hround, ?_⟩
  simp only [duprow1Column, hround]
  exact hmem.storeWords _ fun j hj => congrArg (· ^^^ _) (hinput j hj)

/-- The states of the two duplex columns, which absorb the same sum. -/
theorem duplexSponge_agree {ra rb : Nat} (ha : ra < rows) (hb : rb < rows) :
    duplexSponge (blockAt key d'.mem (matrixAddr cols ra c 0)) (blockAt key d'.mem (matrixAddr cols rb c 0)) d'.sponge =
      duplexSponge (blockAt key d.mem (matrixAddr cols ra c 0)) (blockAt key d.mem (matrixAddr cols rb c 0)) d.sponge := by
  obtain ⟨hsponge, hmem⟩ := h
  have hprev := hmem.blockAt_eq key (block_inside ha hc (Nat.le_refl _))
  have hrand := hmem.blockAt_eq key (block_inside hb hc (Nat.le_refl _))
  simp only [duplexSponge, hsponge]
  rw [absorbLanes_congr _ fun j hj => congrArg₂ (· + ·) (hprev j hj) (hrand j hj)]

theorem dupsetupColumn_agree {ra rb : Nat} (ha : ra < rows) (hb : rb < rows) (rc : Nat) :
    (dupsetupColumn key cols ra rb rc c d).AgreeBelow (rows * cols * 12) (dupsetupColumn key cols ra rb rc c d') := by
  have hround := duplexSponge_agree hc h ha hb (key := key)
  obtain ⟨-, hmem⟩ := h
  have hprev := hmem.blockAt_eq key (block_inside ha hc (Nat.le_refl _))
  refine ⟨hround, ?_⟩
  simp only [dupsetupColumn, hround]
  exact (hmem.storeWords _ fun j hj => congrArg (· ^^^ _) (hprev j hj)).xorWords key (fun _ _ => rfl)
    (block_inside hb hc (Nat.le_refl _))

theorem duprowColumn_agree {ra rb rc : Nat} (ha : ra < rows) (hb : rb < rows) (hrc : rc < rows) :
    (duprowColumn key cols ra rb rc c d).AgreeBelow (rows * cols * 12) (duprowColumn key cols ra rb rc c d') := by
  have hround := duplexSponge_agree hc h ha hb (key := key)
  obtain ⟨-, hmem⟩ := h
  refine ⟨hround, ?_⟩
  simp only [duprowColumn, hround]
  exact (hmem.xorWords key (fun _ _ => rfl) (block_inside hrc hc (Nat.le_refl _))).xorWords key (fun _ _ => rfl)
    (block_inside hb hc (Nat.le_refl _))

theorem columnOf_agree {s : State} {i : Instr} (hr : ∀ r ∈ rowOperands s i, r < rows) :
    (columnOf key cols i c d).AgreeBelow (rows * cols * 12) (columnOf key cols i c d') := by
  cases i with
  | sqzrow0 ra => exact sqzrow0Column_agree h ra
  | duprow1 ra rb => exact duprow1Column_agree hc h (hr ra (by simp [rowOperands])) rb
  | dupsetup ra rb rc =>
    exact dupsetupColumn_agree hc h (hr ra (by simp [rowOperands])) (hr rb (by simp [rowOperands])) rc
  | duprow ra rb rc =>
    exact duprowColumn_agree hc h (hr ra (by simp [rowOperands])) (hr rb (by simp [rowOperands])) (hr rc (by simp [rowOperands]))
  | _ => exact h

end

/-! ### The whole loop -/

section
variable {i : Instr} {s : State} (hw : writesMatrix i = true) (hp : firstFailure s (checksOf i s) = none)
include hw hp

theorem columnsOf_memOk {n : Nat} (hn : s.cfgRows.toNat * s.cfgCols.toNat * 12 ≤ n) (h : Datapath.MemOk n ⟨s.sponge, s.mem⟩) :
    (columnsOf i s).MemOk n :=
  columnLoop_induct (fun _ e => e.MemOk n) h s.cols fun _ _ hc he => columnOf_memOk (rowCommand_rows hw hp) hc hn he

theorem columnsOf_above {a : Nat} (ha : 8 * (s.cfgRows.toNat * s.cfgCols.toNat * 12) ≤ a) :
    (columnsOf i s).mem.byte? a = s.mem.byte? a :=
  columnLoop_induct (fun _ e => e.mem.byte? a = s.mem.byte? a) rfl s.cols fun _ _ hc he =>
    (columnOf_above (rowCommand_rows hw hp) hc ha).trans he

theorem columnsOf_agree {m : Memory} (h : s.mem.AgreeBelow (s.cfgRows.toNat * s.cfgCols.toNat * 12) m) :
    (columnsOf i s).AgreeBelow (s.cfgRows.toNat * s.cfgCols.toNat * 12) (columnsOf i { s with mem := m }) := by
  have hloop : ∀ n ≤ s.cols, Datapath.AgreeBelow (s.cfgRows.toNat * s.cfgCols.toNat * 12)
      (columnLoop (columnOf s.draws s.cols (rowCommand s i)) n ⟨s.sponge, s.mem⟩)
      (columnLoop (columnOf s.draws s.cols (rowCommand s i)) n ⟨s.sponge, m⟩) := by
    intro n hn
    induction n with
    | zero => exact ⟨rfl, h⟩
    | succ n ih => exact columnOf_agree (Nat.lt_of_succ_le hn) (ih (Nat.le_of_succ_le hn)) (rowCommand_rows hw hp)
  have hsame : rowCommand { s with mem := m } i = rowCommand s i := by cases i <;> rfl
  rw [columnsOf, columnsOf, hsame]
  exact hloop s.cols (Nat.le_refl _)

end

/-! ### A command in a state with another memory -/

/-- No check reads `MEM` (R116). -/
theorem firstFailure_withMem (s : State) (m : Memory) (cs : List Check) :
    firstFailure { s with mem := m } cs = firstFailure s cs :=
  firstFailure_congr (fun c => by cases c <;> rfl) cs

theorem checksOf_withMem (i : Instr) (s : State) (m : Memory) : checksOf i { s with mem := m } = checksOf i s := by
  cases i <;> rfl

theorem scheduled_withMem (i : Instr) (s : State) (m : Memory) :
    scheduled i { s with mem := m } = { scheduled i s with mem := m } := by
  cases i with
  | agsstep => rw [scheduled, scheduled, advanceSetup_registers, advanceSetup_registers]
  | _ => rfl

/-- A command that writes no matrix word reads it only in the block it absorbs. -/
theorem effectOf_withMem_of_not_writesMatrix {i : Instr} {s : State} {m : Memory} (hw : writesMatrix i = false)
    (hp : firstFailure s (checksOf i s) = none) (h : s.mem.AgreeBelow (s.cfgRows.toNat * s.cfgCols.toNat * 12) m) :
    effectOf i { s with mem := m } = { effectOf i s with mem := m } := by
  obtain ⟨hcfg, -, hrows, hbound⟩ := (checks_pass_iff s i).mp hp
  cases i with
  | absorb8 addr =>
    have hinside := (addrInside_passes_iff s addr).mp hbound
    rw [effectOf_absorb8, effectOf_absorb8, absorbLanes_congr _ (h.blockAt_eq s.draws hinside)]
  | absorb12 ra =>
    obtain ⟨-, -, hcols, -⟩ := hcfg rfl
    have hblock := h.blockAt_eq s.draws (block_inside (hrows ra (by simp [rowOperands])) hcols (Nat.le_refl _))
    rw [effectOf_absorb12, effectOf_absorb12, State.cols, State.cols, absorbLanes_congr _ hblock]
  | sqzrow0 | duprow1 | dupsetup | duprow | agsstep | agwstep => cases hw
  | _ => rfl

/-! ### The statements -/

/-- Settles O39: a column writes inside the matrix only, and a squeeze the bytes below its length only. -/
theorem commandsWriteOnlyTheMatrix : Obligations.CommandsWriteOnlyTheMatrix := by
  intro s t i he
  obtain ⟨hp, rfl⟩ | ⟨e, -, rfl⟩ := exec_cases he
  case inr => exact ⟨fun _ _ => rfl, fun _ => rfl, fun _ _ => rfl⟩
  refine ⟨fun a ha => ?matrix, effectOf_mem_of_not_writesMatrix s, fun k hk => ?output⟩
  case matrix =>
    cases hw : writesMatrix i with
    | true => rw [State.complete_mem, effectOf_mem_of_writesMatrix s hw, columnsOf_above hw hp ha]
    | false => rw [State.complete_mem, effectOf_mem_of_not_writesMatrix s hw]
  case output =>
    rw [State.complete_out]
    by_cases hout : (effectOf i s).out = s.out
    · rw [hout]
    · obtain ⟨len, rfl⟩ := writer_of_output (.inr hout)
      rw [byte?_effectOf_squeeze, if_neg (Nat.not_lt.mpr (hk len rfl))]

/-- Settles O40: the checks do not read `MEM`, a column reads the matrix only, and an absorbed block lies inside it. -/
theorem commandsReadOnlyTheMatrix : Obligations.CommandsReadOnlyTheMatrix := by
  intro s t i m hm he
  obtain ⟨hp, rfl⟩ | ⟨e, hf, rfl⟩ := exec_cases he
  case inr =>
    refine ⟨m, ?_, hm⟩
    rw [exec_of_fails (e := e) (by rw [checksOf_withMem, firstFailure_withMem, hf])]
    rfl
  have hexec : exec i { s with mem := m } = .next (effectOf i { s with mem := m }).complete :=
    exec_of_passes (by rw [checksOf_withMem, firstFailure_withMem, hp])
  cases hw : writesMatrix i with
  | true =>
    obtain ⟨hsponge, hagree⟩ := columnsOf_agree hw hp hm
    refine ⟨(columnsOf i { s with mem := m }).mem, ?_, ?_⟩
    · rw [hexec, effectOf_of_writesMatrix _ hw, effectOf_of_writesMatrix _ hw, scheduled_withMem, hsponge]
      rfl
    · rw [State.complete_mem, effectOf_mem_of_writesMatrix s hw]
      exact hagree
  | false =>
    refine ⟨m, ?_, ?_⟩
    · rw [hexec, effectOf_withMem_of_not_writesMatrix hw hp hm]
      rfl
    · rw [State.complete_mem, effectOf_mem_of_not_writesMatrix s hw]
      exact hm

end Sys2Proof.Machine
end

section
/-! Proofs about the invariant of the engine (60_exceptions.md R114 to R119, 10_state.md R25 to R36, 20_memory.md R48, R51): each
thing a step can do keeps it, so every step does. -/

namespace Sys2Proof.Machine

open Sys2Proof.Claims

/-! ### What the invariant speaks of -/

/-- The fields that the invariant is about. -/
def State.invFields (s : State) :
    (Nat × Nat × Memory × Memory × Word) × (Bool × Bool × BitVec 8 × Option Word × Word) :=
  ((s.memWords, s.outCap, s.mem, s.out, s.outLen), (s.done, s.err, s.errCode, s.inflight, s.cmd))

theorem State.Inv.of_invFields {s t : State} (h : s.Inv) (he : t.invFields = s.invFields) : t.Inv := by
  simp only [State.invFields, Prod.mk.injEq] at he
  obtain ⟨⟨hwords, hcap, hmem, hout, hlen⟩, hdone, herr, hcode, hinflight, hcmd⟩ := he
  obtain ⟨legal, memWf, memInside, outWf, outInside, lenFits, doneOrErr, codeZero, codeKnown, inFlight⟩ := h
  refine ⟨?_, ?_, ?_, ?_, ?_, ?_, ?_, ?_, ?_, ?_⟩
  · simpa only [State.LegalInstance, hwords, hcap] using legal
  · rwa [hmem]
  · rwa [hmem, hwords]
  · rwa [hout]
  · rwa [hout, hcap]
  · rwa [hlen, hcap]
  · rwa [hdone, herr]
  · rwa [herr, hcode]
  · rwa [herr, hcode]
  · rwa [hinflight, herr, hdone, hcmd]

theorem State.Inv.withEvents {s : State} (h : s.Inv) (es : List Event) : ({ s with events := es } : State).Inv :=
  h.of_invFields rfl

/-! ### The end of a command (R117, R118) -/

theorem ErrCode.value_known (e : ErrCode) : 1 ≤ e.value.toNat ∧ e.value.toNat ≤ 6 := by
  cases e <;> decide

theorem State.Inv.reject {s : State} {w : Word} (h : s.Inv) (hw : s.inflight = some w) (e : ErrCode) : (s.reject e).Inv := by
  obtain ⟨legal, memWf, memInside, outWf, outInside, lenFits, -, -, -, inFlight⟩ := h
  obtain ⟨-, hdone, -⟩ := inFlight w hw
  exact ⟨legal, memWf, memInside, outWf, outInside, lenFits, fun hd => absurd (hdone.symm.trans hd) Bool.false_ne_true,
    fun he => absurd he.symm Bool.false_ne_true, fun _ => e.value_known, fun _ hi => absurd hi (Option.some_ne_none _).symm⟩

theorem effectOf_mem_wf {i : Instr} {s : State} (h : s.Inv) (hp : firstFailure s (checksOf i s) = none) :
    (effectOf i s).mem.wf ∧ (effectOf i s).mem.Inside (8 * s.memWords) := by
  cases hw : writesMatrix i with
  | true =>
    obtain ⟨-, -, -, hfits⟩ := cfgOk_of_writesMatrix hw hp
    rw [effectOf_mem_of_writesMatrix s hw]
    exact columnsOf_memOk hw hp hfits ⟨h.mem_wf, h.mem_inside⟩
  | false =>
    rw [effectOf_mem_of_not_writesMatrix s hw]
    exact ⟨h.mem_wf, h.mem_inside⟩

/-- A squeeze that fits keeps `OUT` in form and inside its bounds, and `OUT_LEN` fits; no other command writes them. -/
theorem effectOf_out_wf {i : Instr} {s : State} (h : s.Inv) (hp : firstFailure s (checksOf i s) = none) :
    (effectOf i s).out.wf ∧ (effectOf i s).out.Inside s.outCap ∧ (effectOf i s).outLen.toNat ≤ s.outCap := by
  by_cases hwrites : (effectOf i s).outLen ≠ s.outLen ∨ (effectOf i s).out ≠ s.out
  · obtain ⟨len, rfl⟩ := writer_of_output hwrites
    obtain ⟨-, -, -, hbound⟩ := (checks_pass_iff s (.squeeze len)).mp hp
    have hfits := (lenFits_passes_iff s len).mp hbound
    rw [effectOf_squeeze]
    exact ⟨copyOut_wf _ _ _ (squeezeChunks_wf _ h.out_wf),
      copyOut_inside _ (squeezeChunks_inside _ h.out_inside (by omega)) (by omega),
      Nat.le_trans (by rw [BitVec.toNat_ofNat]; exact Nat.mod_le _ _) hfits⟩
  · obtain ⟨hlen, hout⟩ := not_or.mp hwrites
    rw [not_ne_iff.mp hlen, not_ne_iff.mp hout]
    exact ⟨h.out_wf, h.out_inside, h.outLen_fits⟩

theorem State.Inv.complete {s : State} {w : Word} {i : Instr} (h : s.Inv) (hw : s.inflight = some w)
    (hp : firstFailure s (checksOf i s) = none) : (effectOf i s).complete.Inv := by
  obtain ⟨memWf, memInside⟩ := effectOf_mem_wf h hp
  obtain ⟨outWf, outInside, lenFits⟩ := effectOf_out_wf h hp
  obtain ⟨legal, -, -, -, -, -, -, codeZero, -, inFlight⟩ := h
  obtain ⟨herr, -, -⟩ := inFlight w hw
  have noErr : (effectOf i s).complete.err = false := by simp [herr]
  refine ⟨by simpa [State.LegalInstance] using legal, by simpa using memWf, by simpa using memInside, by simpa using outWf,
    by simpa using outInside, by simpa using lenFits, fun _ => noErr, fun _ => by simpa using codeZero herr,
    fun he => absurd (noErr.symm.trans he) Bool.false_ne_true, fun _ hi => absurd hi (Option.some_ne_none _).symm⟩

theorem State.Inv.engineStep {s t : State} (h : s.Inv) (hs : engineStep s = .next t) : t.Inv := by
  obtain ⟨-, rfl⟩ | ⟨w, i, hw, -, hx⟩ | ⟨w, e, hw, -, rfl⟩ := engineStep_cases hs
  · exact h
  · obtain ⟨hp, rfl⟩ | ⟨e, -, rfl⟩ := exec_cases hx
    · exact h.complete hw hp
    · exact h.reject hw e
  · exact h.reject hw .opcode

/-! ### The resets (R138, R139) -/

theorem State.Inv.softReset {s : State} (h : s.Inv) : s.softReset.Inv := by
  obtain ⟨legal, memWf, memInside, outWf, outInside, -, -, -, -, -⟩ := h
  exact ⟨by simpa [State.LegalInstance] using legal, by simpa using memWf, by simpa using memInside, by simpa using outWf,
    by simpa using outInside, Nat.zero_le _, fun _ => rfl, fun _ => rfl,
    fun he => absurd he Bool.false_ne_true, fun _ hi => absurd hi (Option.some_ne_none _).symm⟩

theorem State.Inv.hardReset {s : State} (h : s.Inv) : s.hardReset.Inv := by
  obtain ⟨legal, -, -, -, -, -, -, -, -, -⟩ := h
  exact ⟨by simpa [State.LegalInstance] using legal, List.Pairwise.nil, fun _ hc => absurd hc List.not_mem_nil,
    List.Pairwise.nil, fun _ hc => absurd hc List.not_mem_nil, Nat.zero_le _, fun _ => rfl, fun _ => rfl,
    fun he => absurd he Bool.false_ne_true, fun _ hi => absurd hi (Option.some_ne_none _).symm⟩

/-! ### The host's accesses (R25 to R31, R48, R115) -/

/-- A matrix word the host can name lies in `MEM` (R46). -/
theorem State.matrixWord_lt {s : State} {h : HAddr} {a : Nat} (hr : s.region h = .matrixWord a) : a < s.memWords := by
  simp only [State.region, regionOf] at hr
  repeat' split at hr
  all_goals simp only [reduceCtorEq, Region.matrixWord.injEq] at hr <;> omega

section
variable {s : State} (h : s.Inv) (hidle : s.inflight = none)
include h hidle

theorem State.Inv.writeStatus (v : Word) : (s.writeStatus v).Inv := by
  rw [State.writeStatus_eq]
  obtain ⟨legal, memWf, memInside, outWf, outInside, lenFits, doneOrErr, codeZero, codeKnown, -⟩ := h
  refine ⟨legal, memWf, memInside, outWf, outInside, lenFits, ?_, ?_, ?_, fun w hi => absurd (hidle.symm.trans hi) (by simp)⟩
  · intro hd
    simp only [Bool.and_eq_true] at hd
    simp [doneOrErr hd.1]
  · intro he
    cases hv : v.getLsbD 2 with
    | true => rfl
    | false =>
      simp only [hv, Bool.not_false, Bool.and_true] at he
      simpa using codeZero he
  · intro he
    simp only [Bool.and_eq_true, Bool.not_eq_true'] at he
    obtain ⟨he, hv⟩ := he
    simpa only [hv, Bool.false_eq_true, if_false] using codeKnown he

theorem State.Inv.issue (w : Word) : (s.issue w).Inv := by
  cases herr : s.err with
  | true =>
    rw [State.issue_of_err w herr]
    obtain ⟨legal, memWf, memInside, outWf, outInside, lenFits, doneOrErr, codeZero, codeKnown, -⟩ := h
    exact ⟨legal, memWf, memInside, outWf, outInside, lenFits, doneOrErr, codeZero, codeKnown,
      fun _ hi => absurd (hidle.symm.trans hi) (by simp)⟩
  | false =>
    rw [State.issue_of_not_err w herr]
    obtain ⟨legal, memWf, memInside, outWf, outInside, lenFits, -, codeZero, codeKnown, -⟩ := h
    exact ⟨legal, memWf, memInside, outWf, outInside, lenFits, fun hd => absurd hd Bool.false_ne_true, codeZero, codeKnown,
      fun _ hi => ⟨herr, rfl, Option.some.inj hi⟩⟩

theorem State.Inv.writeCsr (v : Word) (r : Csr) : (s.writeCsr v r).Inv := by
  cases r with
  | ctrl =>
    cases hv : v.getLsbD 2 with
    | true =>
      rw [State.writeCsr, s.writeCtrl_of_srst hv]
      exact h.softReset
    | false =>
      rw [State.writeCsr, s.writeCtrl_of_not_srst hv]
      exact h.of_invFields rfl
  | status => exact h.writeStatus hidle v
  | cmd => exact h.issue hidle v
  | _ => exact h.of_invFields rfl

theorem State.Inv.write (haddr : HAddr) (v : Word) : (s.busWrite haddr v).Inv := by
  rw [State.busWrite]
  cases hr : s.region haddr with
  | csr r => exact h.writeCsr hidle v r
  | matrixWord a =>
    have ha := State.matrixWord_lt hr
    obtain ⟨legal, memWf, memInside, outWf, outInside, lenFits, doneOrErr, codeZero, codeKnown, inFlight⟩ := h
    exact ⟨legal, Memory.setWord_wf a v memWf, Memory.setWord_inside v memInside ha, outWf, outInside, lenFits, doneOrErr, codeZero,
      codeKnown, inFlight⟩
  | stateWord | outWord | reserved => exact h.of_invFields rfl

end

/-! ### The statements -/

/-- Settles O35: the engine's move, a hardware reset and an access each keep the invariant; a write is made only to an
idle engine. -/
theorem stepKeepsInvariant : Obligations.StepKeepsInvariant := by
  intro s t h hs
  obtain ⟨es, -, hx⟩ | ⟨es, -, rfl⟩ | ⟨a, es, -, hidle, rfl⟩ := step_cases hs
  · exact (h.withEvents es).engineStep hx
  · exact (h.withEvents es).hardReset
  · cases a with
    | read haddr => exact h.of_invFields rfl
    | write haddr v =>
      have hnone : s.inflight = none := by
        simpa [State.busy, Access.passesHold] using hidle
      exact (h.withEvents es).write hnone haddr v

/-- Settles O36: the parameters are legal by their definitions, and everything else is empty or 0. -/
theorem resetMeetsInvariant : Obligations.ResetMeetsInvariant := by
  have hwords := Config.memWordsAbove36.isLt
  have hunits := Config.outUnitsAbove1.isLt
  have legal : State.reset.LegalInstance := by
    simp only [State.LegalInstance, State.reset, Config.memWords, Config.outCap]
    omega
  exact ⟨legal, List.Pairwise.nil, fun _ hc => absurd hc List.not_mem_nil, List.Pairwise.nil,
    fun _ hc => absurd hc List.not_mem_nil, Nat.zero_le _, fun _ => rfl, fun _ => rfl,
    fun he => absurd he Bool.false_ne_true, fun _ hi => absurd hi (Option.some_ne_none _).symm⟩

end Sys2Proof.Machine
end

section
/-! Proofs of the rule that nothing depends on `S` while `SV` is 0 (10_state.md R18, R19): each thing a step can do is compared in
two states that differ in `S` only. -/

namespace Sys2Proof.Machine

open Sys2Proof.Claims

/-! ### The relation of the two outcomes -/

/-- The second state is the first but for `S`, and the same once `SV` is 1. -/
def SameButFreeSponge (t u : State) : Prop := ∃ y, u = { t with sponge := y } ∧ (t.sv = true → y = t.sponge)

theorem sameButFreeSponge_of_not_sv {t : State} (y : Sponge) (h : t.sv = false) : SameButFreeSponge t { t with sponge := y } :=
  ⟨y, rfl, fun hv => absurd (h.symm.trans hv) Bool.false_ne_true⟩

theorem sameButFreeSponge_refl (t : State) : SameButFreeSponge t t :=
  ⟨t.sponge, rfl, fun _ => rfl⟩

/-! ### Commands (R116) -/

/-- No check reads `S`. -/
theorem firstFailure_withSponge (s : State) (x : Sponge) (cs : List Check) :
    firstFailure { s with sponge := x } cs = firstFailure s cs :=
  firstFailure_congr (fun c => by cases c <;> rfl) cs

theorem checksOf_withSponge (i : Instr) (s : State) (x : Sponge) : checksOf i { s with sponge := x } = checksOf i s := by
  cases i <;> rfl

/-- The four commands that run with `SV = 0` do not read `S`. -/
theorem effectOf_withSponge {i : Instr} {s : State} (x : Sponge) (hv : s.sv = false) (hi : readsState i = false) :
    SameButFreeSponge (effectOf i s).complete (effectOf i { s with sponge := x }).complete := by
  cases i with
  | nop | agsinit | agwinit => exact sameButFreeSponge_of_not_sv x hv
  | init => exact sameButFreeSponge_refl _
  | _ => cases hi

theorem exec_withSponge {i : Instr} {s t : State} (x : Sponge) (hv : s.sv = false) (he : exec i s = .next t) :
    ∃ u, exec i { s with sponge := x } = .next u ∧ SameButFreeSponge t u := by
  obtain ⟨hp, rfl⟩ | ⟨e, hf, rfl⟩ := exec_cases he
  · have hi : readsState i = false := by
      obtain ⟨-, hstate, -, -⟩ := (checks_pass_iff s i).mp hp
      exact Bool.eq_false_iff.mpr fun hi => absurd (hv.symm.trans (hstate hi)) Bool.false_ne_true
    exact ⟨_, exec_of_passes (by rw [checksOf_withSponge, firstFailure_withSponge, hp]), effectOf_withSponge x hv hi⟩
  · exact ⟨_, exec_of_fails (e := e) (by rw [checksOf_withSponge, firstFailure_withSponge, hf]),
      sameButFreeSponge_of_not_sv (t := s.reject e) x hv⟩

theorem engineStep_withSponge {s t : State} (x : Sponge) (hv : s.sv = false) (hs : engineStep s = .next t) :
    ∃ u, engineStep { s with sponge := x } = .next u ∧ SameButFreeSponge t u := by
  obtain ⟨hidle, rfl⟩ | ⟨w, i, hw, hd, hx⟩ | ⟨w, e, hw, hd, rfl⟩ := engineStep_cases hs
  · exact ⟨_, by simp [engineStep, hidle], sameButFreeSponge_of_not_sv x hv⟩
  · rw [engineStep_of_decode_ok (s := { s with sponge := x }) hw hd]
    exact exec_withSponge x hv hx
  · exact ⟨_, engineStep_of_decode_error (s := { s with sponge := x }) hw hd,
      sameButFreeSponge_of_not_sv (t := s.reject .opcode) x hv⟩

/-! ### Accesses (R19) -/

theorem busRead_withSponge {s : State} (x : Sponge) (hv : s.sv = false) (h : HAddr) :
    ({ s with sponge := x } : State).busRead h = s.busRead h := by
  have hregion : ({ s with sponge := x } : State).region h = s.region h := rfl
  rw [State.busRead, State.busRead, hregion]
  cases s.region h with
  | csr r => cases r <;> rfl
  | stateWord i => simp [State.readRegion, hv]
  | outWord | matrixWord | reserved => rfl

theorem writeCsr_withSponge (s : State) (x : Sponge) (v : Word) (r : Csr) :
    ∃ y, ({ s with sponge := x } : State).writeCsr v r = { s.writeCsr v r with sponge := y } := by
  cases r with
  | ctrl =>
    cases hv : v.getLsbD 2 with
    | true =>
      refine ⟨s.softReset.sponge, ?_⟩
      rw [State.writeCsr, State.writeCsr, State.writeCtrl_of_srst _ hv, State.writeCtrl_of_srst _ hv]
      rfl
    | false =>
      refine ⟨x, ?_⟩
      rw [State.writeCsr, State.writeCsr, State.writeCtrl_of_not_srst _ hv, State.writeCtrl_of_not_srst _ hv]
  | status =>
    refine ⟨x, ?_⟩
    rw [State.writeCsr, State.writeCsr, State.writeStatus_eq, State.writeStatus_eq]
  | cmd =>
    refine ⟨x, ?_⟩
    rw [State.writeCsr, State.writeCsr]
    rcases Bool.eq_false_or_eq_true s.err with herr | herr
    · rw [State.issue_of_err v herr, State.issue_of_err (s := { s with sponge := x }) v herr]
    · rw [State.issue_of_not_err v herr, State.issue_of_not_err (s := { s with sponge := x }) v herr]
      rfl
  | _ => exact ⟨x, rfl⟩

theorem performAccess_withSponge {s : State} (x : Sponge) (hv : s.sv = false) (a : Access) :
    SameButFreeSponge (s.performAccess a) (State.performAccess a { s with sponge := x }) := by
  have hafter : (s.performAccess a).sv = false := by
    by_contra hne
    obtain ⟨-, -, -, -, -, hreset⟩ := softReset_of_access_sv (s := s) (a := a) (hv ▸ hne)
    exact hne (hreset ▸ rfl)
  suffices h : ∃ y, State.performAccess a { s with sponge := x } = { s.performAccess a with sponge := y } by
    obtain ⟨y, hy⟩ := h
    rw [hy]
    exact sameButFreeSponge_of_not_sv y hafter
  cases a with
  | read h =>
    refine ⟨x, ?_⟩
    rw [State.performAccess, State.performAccess, busRead_withSponge x hv]
  | write h v =>
    have hregion : ({ s with sponge := x } : State).region h = s.region h := rfl
    rw [State.performAccess, State.performAccess, State.busWrite, State.busWrite, hregion]
    cases s.region h with
    | csr r => exact writeCsr_withSponge s x v r
    | stateWord i => exact ⟨x.set i v, rfl⟩
    | outWord | matrixWord | reserved => exact ⟨x, rfl⟩

/-! ### The statement -/

/-- The step of the block in two states that differ in `S`: who moves does not depend on `S`. -/
theorem step_withSponge {s t : State} (x : Sponge) (hv : s.sv = false) (hs : step s = .next t) :
    ∃ u, step { s with sponge := x } = .next u ∧ SameButFreeSponge t u := by
  obtain ⟨evs, he⟩ : ∃ evs, s.events = evs := ⟨_, rfl⟩
  cases evs with
  | nil =>
    rw [step_of_no_event he] at hs
    rw [step_of_no_event (s := { s with sponge := x }) he]
    exact engineStep_withSponge x hv hs
  | cons e es =>
    cases e with
    | engineTurn =>
      rw [step_engineTurn he] at hs
      rw [step_engineTurn (s := { s with sponge := x }) he]
      exact engineStep_withSponge (s := { s with events := es }) x hv hs
    | hardwareReset =>
      rw [step_hardwareReset he] at hs
      obtain rfl := Host.Outcome.next.inj hs
      exact ⟨_, step_hardwareReset (s := { s with sponge := x }) he, sameButFreeSponge_refl _⟩
    | access a =>
      by_cases hheld : s.busy = true ∧ a.passesHold = false
      · obtain ⟨hb, ha⟩ := hheld
        rw [step_access_of_held hb ha he] at hs
        rw [step_access_of_held (s := { s with sponge := x }) hb ha he]
        exact engineStep_withSponge x hv hs
      · rw [step_access_of_not_held hheld he] at hs
        obtain rfl := Host.Outcome.next.inj hs
        exact ⟨_, step_access_of_not_held (s := { s with sponge := x }) hheld he,
          performAccess_withSponge (s := { s with events := es }) x hv a⟩

/-- Settles O41: `step_withSponge`. -/
theorem unspecifiedStateIsNeverObserved : Obligations.UnspecifiedStateIsNeverObserved := by
  intro s t x hv hs
  obtain ⟨u, hu, y, rfl, hy⟩ := step_withSponge x hv hs
  exact ⟨y, hu, hy⟩

end Sys2Proof.Machine
end

section
/-! Proofs of the families 10_state.md, 20_memory.md and 70_reset_and_hazards.md about the host's accesses: the registers and
windows an idle engine's host reads and writes, the accesses a command in flight holds, the interrupt line and the two resets. -/

namespace Sys2Proof.Machine

open Sys2Proof.Claims

/-! ### A read and a write of each kind of region (R46) -/

/-- A host read of an idle engine gives the word at its address and changes nothing of the engine (R59). -/
theorem step_read_of_idle {s : State} {h : HAddr} {es : List Event} (hb : s.busy = false)
    (he : s.events = .access (.read h) :: es) :
    step s = .next { s with events := es, rdata := some (s.busRead h), draws := s.draws + 1 } := by
  rw [step_access_of_idle hb he, State.performAccess, State.busRead_events]

theorem step_write_of_idle {s : State} {h : HAddr} {v : Word} {es : List Event} (hb : s.busy = false)
    (he : s.events = .access (.write h v) :: es) :
    step s = .next (State.writeRegion v { s with events := es } (s.region h)) := by
  rw [step_access_of_idle hb he, State.performAccess, State.busWrite]
  rfl

theorem State.region_matrixWord (s : State) {h : HAddr} {a : Nat} (ha : a < s.memWords) (hh : h.toNat = 0x10000000 + a) :
    s.region h = .matrixWord a :=
  regionOf_matrixWord ha hh

theorem State.region_stateWord (s : State) {h : HAddr} (i : Fin 16) (hh : h.toNat = 0x100 + i.val) :
    s.region h = .stateWord i :=
  regionOf_stateWord i hh

/-- A reserved address names nothing (R23, R46, R52). -/
theorem State.region_reserved {s : State} {h : HAddr} (hr : ReservedAddress s h) : s.region h = .reserved := by
  simp only [State.region, regionOf]
  obtain ⟨hlo, hhi⟩ | ⟨hlo, hhi⟩ | ⟨hlo, hhi, hcap⟩ | ⟨hlo, hhi⟩ | habove := hr
  · rw [if_pos (by omega), csrAt_reserved hlo]
  · rw [if_neg (by omega), if_neg (by omega), if_pos (by omega)]
  · rw [if_neg (by omega), if_neg (by omega), if_neg (by omega), if_pos (by omega), if_neg (by omega)]
  · rw [if_neg (by omega), if_neg (by omega), if_neg (by omega), if_neg (by omega), if_pos (by omega)]
  · rw [if_neg (by omega), if_neg (by omega), if_neg (by omega), if_neg (by omega), if_neg (by omega), if_neg (by omega)]

/-- An address of the output window names a word of `OUT` or nothing, and a write there has no effect either way (R47, R52). -/
theorem State.writeRegion_outputWindow (s : State) (v : Word) {h : HAddr} (hlo : 0x200 ≤ h.toNat) (hhi : h.toNat ≤ 0x3FF)
    (t : State) :
    t.writeRegion v (s.region h) = t := by
  simp only [State.region, regionOf]
  rw [if_neg (by omega), if_neg (by omega), if_neg (by omega), if_pos (by omega)]
  split <;> rfl

/-! ### The registers the host writes and reads back (R20, R21) -/

/-- The nine registers that a host write sets to the whole word. -/
theorem exists_wholeRegister {n : Nat} (h : n ∈ [0x05, 0x06, 0x08, 0x09, 0x0A, 0x0B, 0x0C, 0x0D, 0x0E]) :
    ∃ r : Csr, n = r.offset ∧ ∀ (s : State) (v : Word), (s.writeCsr v r).readCsr r = v ∧ (s.writeCsr v r).busy = s.busy := by
  simp only [List.mem_cons, List.not_mem_nil, or_false] at h
  rcases h with e | e | e | e | e | e | e | e | e
  · exact ⟨.cfgRows, e, fun _ _ => ⟨rfl, rfl⟩⟩
  · exact ⟨.cfgCols, e, fun _ _ => ⟨rfl, rfl⟩⟩
  · exact ⟨.agRow, e, fun _ _ => ⟨rfl, rfl⟩⟩
  · exact ⟨.agPrev, e, fun _ _ => ⟨rfl, rfl⟩⟩
  · exact ⟨.agRowa, e, fun _ _ => ⟨rfl, rfl⟩⟩
  · exact ⟨.agStep, e, fun _ _ => ⟨rfl, rfl⟩⟩
  · exact ⟨.agWindow, e, fun _ _ => ⟨rfl, rfl⟩⟩
  · exact ⟨.agGap, e, fun _ _ => ⟨rfl, rfl⟩⟩
  · exact ⟨.agBigstep, e, fun _ _ => ⟨rfl, rfl⟩⟩

/-- The read-only registers ignore a write (R47). -/
theorem exists_readOnlyRegister {n : Nat} (h : n ∈ [0x00, 0x04, 0x07, 0x0F, 0x10, 0x11]) :
    ∃ r : Csr, n = r.offset ∧ ∀ (s : State) (v : Word), s.writeCsr v r = s := by
  simp only [List.mem_cons, List.not_mem_nil, or_false] at h
  rcases h with e | e | e | e | e | e
  · exact ⟨.id, e, fun _ _ => rfl⟩
  · exact ⟨.errInfo, e, fun _ _ => rfl⟩
  · exact ⟨.outLen, e, fun _ _ => rfl⟩
  · exact ⟨.capMemWords, e, fun _ _ => rfl⟩
  · exact ⟨.capOut, e, fun _ _ => rfl⟩
  · exact ⟨.capFlags, e, fun _ _ => rfl⟩

/-- A write and a read of one address, one after the other. -/
theorem write_then_read {s : State} {h : HAddr} {v : Word} {es : List Event} (hb : s.busy = false)
    (he : s.events = .access (.write h v) :: .access (.read h) :: es)
    (hw : ∀ t : State, t.memWords = s.memWords → (t.busWrite h v).busy = t.busy ∧ (t.busWrite h v).busRead h = v) :
    ∃ t u, step s = .next t ∧ step t = .next u ∧ u.rdata = some v ∧ u.events = es := by
  obtain ⟨hbusy, hread⟩ := hw { s with events := .access (.read h) :: es } rfl
  exact ⟨_, _, step_access_of_idle hb he, step_read_of_idle (hbusy.trans hb) (performAccess_events _ _), congrArg some hread, rfl⟩

/-! ### The bits of `CTRL` (R25) -/

theorem State.ctrlWord_getLsbD_zero (s : State) : s.ctrlWord.getLsbD 0 = s.ieDone := by
  simp only [State.ctrlWord, BitVec.getLsbD_append]
  simp

theorem State.ctrlWord_getLsbD_one (s : State) : s.ctrlWord.getLsbD 1 = s.ieErr := by
  simp only [State.ctrlWord, BitVec.getLsbD_append]
  simp

theorem State.ctrlWord_reserved (s : State) : s.ctrlWord.extractLsb' 2 62 = 0 := by
  refine BitVec.eq_of_getLsbD_eq fun i hi => ?_
  simp only [State.ctrlWord, BitVec.getLsbD_extractLsb', BitVec.getLsbD_append]
  simp [show ¬2 + i < 1 by omega]

/-! ### The interrupt line (R126) -/

theorem State.irq_iff (s : State) : s.irq = true ↔ (s.done = true ∧ s.ieDone = true) ∨ (s.err = true ∧ s.ieErr = true) := by
  simp [State.irq]

theorem State.irq_of_not_pending {s : State} (hd : s.done = false) (he : s.err = false) : s.irq = false := by
  simp [State.irq, hd, he]

theorem State.irq_of_not_enabled {s : State} (hd : s.ieDone = false) (he : s.ieErr = false) : s.irq = false := by
  simp [State.irq, hd, he]

/-! ### The statements -/

/-- Settles O44: bit 7 is the line; a new command, the clearing write and a reset leave no cause, a cleared `CTRL` no enable. -/
theorem interruptLine : Obligations.InterruptLine := by
  intro s
  refine ⟨?line, fun w herr => ?command, ?status, ?enables, State.irq_of_not_pending rfl rfl, State.irq_of_not_pending rfl rfl⟩
  case line =>
    have hbit : s.statusWord.getLsbD 7 = s.irq := s.statusWord_flag 7
    rw [State.busRead_status, hbit, State.irq_iff]
  case command =>
    rw [State.issue_of_not_err w herr]
    exact State.irq_of_not_pending rfl herr
  case status =>
    rw [State.writeStatus_eq]
    exact State.irq_of_not_pending (Bool.and_false _) (Bool.and_false _)
  case enables =>
    rw [State.writeCtrl_of_not_srst s rfl]
    exact State.irq_of_not_enabled rfl rfl

/-- Settles O46: a held access leaves the step to the engine, which ends its command; the two reads that pass are performed. -/
theorem hostAccessesAreHeldWhileBusy : Obligations.HostAccessesAreHeldWhileBusy := by
  intro s w a es hw he
  have hb := State.busy_of_inflight hw
  refine ⟨fun hstatus hid => ?held, fun hstatus => ?statusRead, fun hid => ?idRead⟩
  case held =>
    have hholds : a.passesHold = false := by
      rw [Bool.eq_false_iff, Ne, passesHold_iff]
      exact not_or.mpr ⟨hstatus, hid⟩
    obtain ⟨t, ht⟩ := engineStep_answers s
    obtain ⟨hevents, hidle⟩ := engineStep_settles ht
    exact ⟨t, (step_access_of_held hb hholds he).trans ht, hevents.trans he, hidle⟩
  case statusRead =>
    have hstep := step_access_of_passes ((passesHold_iff a).mpr (.inl hstatus)) he
    subst hstatus
    refine ⟨_, hstep, ?_, (s.statusWord_flag 0).trans hb⟩
    rw [State.performAccess, State.busRead_events, State.busRead_status]
  case idRead =>
    have hstep := step_access_of_passes ((passesHold_iff a).mpr (.inr hid)) he
    subst hid
    rw [hstep, State.performAccess, State.busRead_events, s.busRead_csr (r := .id) rfl, State.readCsr, idWord]

/-- Settles O47: a reserved address is the reserved region, which reads 0; the three kinds of ignored write leave the state. -/
theorem reservedAddressesAreInert : Obligations.ReservedAddressesAreInert := by
  intro s h es hb
  refine ⟨fun hr he => ?_, fun v hplace he => ?_⟩
  · rw [step_read_of_idle hb he, State.busRead, State.region_reserved hr, State.readRegion]
  · rw [step_write_of_idle hb he]
    obtain hr | hro | ⟨hlo, hhi⟩ := hplace
    · rw [State.region_reserved hr, State.writeRegion]
    · obtain ⟨r, hoff, hwrite⟩ := exists_readOnlyRegister hro
      rw [s.region_csr hoff, State.writeRegion, hwrite]
    · rw [State.writeRegion_outputWindow s v hlo hhi]

/-- Settles O49: the register holds the written word, and so does the matrix word (`memRead_setWord`). -/
theorem hostReadsBackWhatItWrote : Obligations.HostReadsBackWhatItWrote := by
  intro s h v es hb hplace he
  obtain hreg | ⟨hlo, hhi⟩ := hplace
  · obtain ⟨r, hoff, hwrite⟩ := exists_wholeRegister hreg
    refine write_then_read hb he fun t _ => ?_
    obtain ⟨hread, hbusy⟩ := hwrite t v
    rw [t.busWrite_csr v hoff, State.busRead_csr _ hoff]
    exact ⟨hbusy, hread⟩
  · refine write_then_read hb he fun t ht => ?_
    have hregion : t.region h = .matrixWord (h.toNat - 0x10000000) := t.region_matrixWord (by omega) (by omega)
    have hafter : ({ t with mem := t.mem.setWord (h.toNat - 0x10000000) v } : State).region h =
        .matrixWord (h.toNat - 0x10000000) := hregion
    rw [State.busWrite, hregion, State.writeRegion, State.busRead, hafter, State.readRegion, memRead_setWord, if_pos rfl]
    exact ⟨rfl, rfl⟩

/-- Settles O50: the write is `setWord` at the address, whose rules are those of Laws/Memory.lean. -/
theorem matrixWindowStoresOneWord : Obligations.MatrixWindowStoresOneWord := by
  intro s h a v es hb ha hh he
  refine ⟨s.mem.setWord a v, ?_, fun key => ?_, fun b hne => Memory.byte?_setWord_ne _ v hne⟩
  · rw [step_write_of_idle hb he, s.region_matrixWord ha hh, State.writeRegion]
  · rw [memRead_setWord, if_pos rfl]

/-- Settles O51: the window's word `i` is `S[i]`, and a write replaces that word only. -/
theorem stateWindow : Obligations.StateWindow := by
  intro s h i es hb hh
  refine ⟨fun hv he => ?_, fun v he => ⟨s.sponge.set i v, ?_, ?_, fun j hj => ?_⟩⟩
  · rw [step_read_of_idle hb he, State.busRead, s.region_stateWord i hh, State.readRegion, if_pos hv]
  · rw [step_write_of_idle hb he, s.region_stateWord i hh, State.writeRegion]
  · rw [Sponge.get_set, if_pos rfl]
  · rw [Sponge.get_set, if_neg hj]

/-- Settles O52: byte `j` of the word read is byte `8k + j` of `OUT` (`leByte_wordAt`). -/
theorem outputWindowPacksBytes : Obligations.OutputWindowPacksBytes := by
  intro s h k es hb hk hh hfits he
  have hregion : s.region h = .outWord k := regionOf_outWord hk hh hfits
  refine ⟨outRead s.draws s.out k, ?_, fun j hj b hbyte => ?_⟩
  · rw [step_read_of_idle hb he, State.busRead, hregion, State.readRegion]
  · refine (leByte_wordAt _ s.out k hj).trans ?_
    rw [Memory.byteAt, hbyte, Option.getD_some]

/-- Settles O53: the bits of `CTRL` one by one, and a write without `SRST`. -/
theorem controlRegister : Obligations.ControlRegister := by
  refine ⟨fun s => ?_, fun s v es hb hv he => ?_⟩
  · rw [s.busRead_csr (r := .ctrl) rfl, State.readCsr]
    exact ⟨s.ctrlWord_getLsbD_zero, s.ctrlWord_getLsbD_one, s.ctrlWord_reserved⟩
  · rw [step_writeCsr_of_idle (r := .ctrl) hb he rfl, State.writeCsr, State.writeCtrl_of_not_srst _ hv]

/-- Settles O54: the write is the soft reset, whose state words are draws. -/
theorem softResetKeepsTheMemories : Obligations.SoftResetKeepsTheMemories := by
  intro s v es hb hv he
  refine ⟨drawnSponge s.draws, ?_⟩
  rw [step_writeCsr_of_idle (r := .ctrl) hb he rfl, State.writeCsr, State.writeCtrl_of_srst _ hv, State.softReset]

/-- Settles O55: the hardware reset is made whatever the engine does, and is the soft reset with both memories emptied. -/
theorem hardwareResetAbandonsTheCommand : Obligations.HardwareResetAbandonsTheCommand := by
  intro s es he
  refine ⟨drawnSponge s.draws, ?_⟩
  rw [step_hardwareReset he, State.hardReset, State.softReset]
  rfl

/-- Settles O56: each register at reset is the value `State.reset` gives it. -/
theorem resetValues : Obligations.ResetValues := by
  have capFlags : State.reset.readCsr .capFlags = State.reset.capFlagsWord := rfl
  refine ⟨by decide, by decide, ⟨rfl, rfl, rfl, rfl, rfl, rfl, fun href => ?_, fun hdoc => ?_⟩, fun a => ⟨rfl, rfl⟩⟩
  · rw [capFlags, State.capFlagsWord, State.reset, href]
  · rw [capFlags, State.capFlagsWord, State.reset, hdoc]

/-- Settles O57: each register stands at its offset, and a read returns it. -/
theorem hostReadReturnsTheRegister : Obligations.HostReadReturnsTheRegister := by
  refine ⟨fun s h es hb he => step_read_of_idle hb he, fun s => ⟨?_, ?_, ?_⟩, fun s => ?registers, fun s w => ?cmd,
    fun s w e hw => ?errInfo, fun s => ?cleared⟩
  · exact s.busRead_csr (r := .cmd) rfl
  · exact s.busRead_csr (r := .errInfo) rfl
  · exact s.busRead_csr (r := .outLen) rfl
  case registers =>
    exact ⟨s.busRead_csr (r := .id) rfl, s.busRead_csr (r := .ctrl) rfl, s.busRead_csr (r := .status) rfl,
      s.busRead_csr (r := .cfgRows) rfl, s.busRead_csr (r := .cfgCols) rfl, s.busRead_csr (r := .agRow) rfl,
      s.busRead_csr (r := .agPrev) rfl, s.busRead_csr (r := .agRowa) rfl, s.busRead_csr (r := .agStep) rfl,
      s.busRead_csr (r := .agWindow) rfl, s.busRead_csr (r := .agGap) rfl, s.busRead_csr (r := .agBigstep) rfl,
      s.busRead_csr (r := .capMemWords) rfl, s.busRead_csr (r := .capOut) rfl, s.busRead_csr (r := .capFlags) rfl⟩
  case cmd =>
    rw [State.busRead_csr (r := .cmd) _ rfl, State.readCsr, State.issue]
    split <;> rfl
  case errInfo =>
    rw [State.busRead_csr (r := .errInfo) _ rfl, State.readCsr, State.reject_eq_of_inflight hw]
  case cleared => exact State.busRead_csr (r := .errInfo) _ rfl

end Sys2Proof.Machine
end
